-- ==== Sys2Proof/Word.lean ====
section
/-! DEFINITION. The word types of the block and the two width changes of R11 (00_scope.md).
Every value is an unsigned bit vector with bit 0 of weight 2^0 (R10, R11). `<<<`, `>>>`, `+`, `&&&`, `|||`, `^^^` and
`++` of Lean's `BitVec` are the operators of R11: logical shifts, addition modulo 2^64, bitwise operations and
concatenation with the left operand in the upper bits. -/

namespace Sys2Proof

/-- A coordinate `x` or `y`: `COORD_WIDTH` = 32 bits, unsigned (R8). -/
abbrev Coord := BitVec 32

/-- A 64-bit value: an interleaved key, a value on `din` or on `dout` (R8, R15). -/
abbrev Key := BitVec 64

/-- A command word `cmd`: 65 bits, `cmd[64] = op` and `cmd[63:0] = din` (R36, R40). -/
abbrev CommandWord := BitVec 65

/-- One byte of an integrator's byte memory (R28). -/
abbrev Byte := BitVec 8

/-- `zext_64(v)` (R11). -/
abbrev zext64 (v : Coord) : Key := v.setWidth 64

/-- `trunc_32(v) = v[31:0]` (R11). -/
abbrev trunc32 (v : Key) : Coord := v.setWidth 32

/-- `op ++ din`, the command word of the two input ports (R36). -/
abbrev command (op : BitVec 1) (din : Key) : CommandWord := (op ++ din : BitVec (1 + 64))

/-- The bit `cmd[64]` of a command word (R36). -/
abbrev CommandWord.op (w : CommandWord) : BitVec 1 := w.extractLsb' 64 1

/-- The bits `cmd[63:0]` of a command word (R36). -/
abbrev CommandWord.din (w : CommandWord) : Key := w.extractLsb' 0 64

end Sys2Proof
end

