-- ==== Sys2Proof/Syntax.lean ====
section
/-! DEFINITION. The commands of the block, one constructor per row of spec/opcode_table.json, and the textual
commands of the assembler (R41). -/

namespace Sys2Proof

/-- A command, its operands as the formats CMD-ENC and CMD-DEC give them (R36, R38). -/
inductive Instr where
  /-- `ENCODE <x>, <y>` (R59). -/
  | encode (x y : Coord)
  /-- `DECODE <key>` (R63). -/
  | decode (key : Key)
  deriving DecidableEq, Repr

/-- A textual command after its numerals are read and before they are checked against their fields (R41). -/
inductive SourceCommand where
  | encode (x y : Nat)
  | decode (key : Nat)
  deriving DecidableEq, Repr

/-- The two mnemonics (R37). -/
inductive Mnemonic where
  | ENCODE
  | DECODE
  deriving DecidableEq, Repr

/-- The mnemonic of a command. -/
def Instr.mnemonic : Instr → Mnemonic
  | .encode _ _ => .ENCODE
  | .decode _ => .DECODE

end Sys2Proof
end

