-- ==== Sys2Proof/WellFormed.lean ====
section
/-! DEFINITION. When a command is well-formed. Every operand of `Instr` has its field's width by its type and every bit
pattern of every field is legal (R38, R39), so the one check the spec asks for is the assembler's: a numeral must fit
its field (R41). -/

namespace Sys2Proof

/-- No value of a field is excluded for either operation (R39). -/
def Instr.wellFormed : Instr → Bool
  | .encode _ _ => true
  | .decode _ => true

/-- "`<x>` and `<y>` are 32-bit unsigned numerals and `<key>` is a 64-bit unsigned numeral" (R41). -/
def SourceCommand.wellFormed : SourceCommand → Bool
  | .encode x y => decide (x < 2 ^ 32) && decide (y < 2 ^ 32)
  | .decode key => decide (key < 2 ^ 64)

end Sys2Proof
end

