-- ==== Sys2Proof/Decode.lean ====
section
/-! DEFINITION. From command words to commands and back (30_encoding.md R36 to R40), and the opcode table of R37. -/

namespace Sys2Proof

/-- The command of a command word. "A decoder reads `cmd[64]` and nothing else" to select the operation (R37); the
operands are the fields of R36 and R38. Total: every one of the 2^65 words is a command (R39). -/
def decodeWord (w : CommandWord) : Instr :=
  if w.op = 0#1 then .encode (w.extractLsb' 0 32) (w.extractLsb' 32 32)
  else .decode (w.extractLsb' 0 64)

/-- The command word of a command: `0 ++ y ++ x` or `1 ++ key` (R36, R37). -/
def encodeWord : Instr → CommandWord
  | .encode x y => (0#1 ++ (y ++ x) : BitVec (1 + (32 + 32)))
  | .decode key => (1#1 ++ key : BitVec (1 + 64))

/-- Why a number is no command word. -/
inductive DecodeReject where
  /-- A bit above `cmd[64]` is set: a command has exactly 65 bits (R40). -/
  | longerThanCommand
  deriving DecidableEq, Repr

/-- The command of a number read as a command word, bit 0 its least significant bit. Only a number that is wider than a
command is rejected (R40); no command word is (R39). -/
def decodeNumber (n : Nat) : Except DecodeReject Instr :=
  if n < 2 ^ 65 then .ok (decodeWord (BitVec.ofNat 65 n)) else .error .longerThanCommand

/-- The number that an opcode-table row's bits make, every bit above `nbits` zero. -/
def tableNumber (nbits w : Nat) : Nat := w % 2 ^ nbits

/-- The instruction the decoder reads from an instruction whose bits are `w`, numbered as spec/opcode_table.json numbers
them (R36: bit 0 is `din[0]`, bit 64 is `op`). -/
def decodeTableWord (nbits w : Nat) : Option Instr :=
  match decodeNumber (tableNumber nbits w) with
  | .ok i => some i
  | .error _ => none

/-- A row of the opcode table: `w` is a word of the row when `w AND mask = match` (R37). -/
structure OpcodeRow where
  mnemonic : Mnemonic
  word : CommandWord
  mask : CommandWord
  deriving DecidableEq, Repr

/-- The table of R37. -/
def opcodeTable : List OpcodeRow :=
  [ ⟨.ENCODE, 0x00000000000000000#65, 0x10000000000000000#65⟩,
    ⟨.DECODE, 0x10000000000000000#65, 0x10000000000000000#65⟩ ]

/-- `w` is a word of row `r`. -/
def OpcodeRow.admits (r : OpcodeRow) (w : CommandWord) : Bool := w &&& r.mask == r.word

end Sys2Proof
end

