-- ==== Sys2Proof/Config.lean ====
section
/-! DEFINITION. What the spec leaves open: the two open parameters of R9, which a model takes as arguments, and the free
value that `dout` has before the first command has settled (R82). -/

namespace Sys2Proof

/-- The open parameters of R9. Every claim that depends on one takes a `Config` as an argument. -/
structure Config where
  /-- `T_PD`, the settling time from a stable input to a stable output (R84). Its unit is that of the times in
  Machine/Settling.lean. -/
  tPD : Nat
  /-- `KEY_BYTE_ORDER` (R28): entry `a` says which byte of a 64-bit value an integrator stores at offset `a`, byte 0 the
  one of least weight. DESIGN CHOICE (log entry 12): any order of the eight bytes, not only the two usual ones. -/
  keyByteOrder : List (Fin 8)
  deriving DecidableEq, Repr

/-- A byte order names each of the eight bytes once (R28). -/
def Config.wellFormed (cfg : Config) : Bool :=
  decide (cfg.keyByteOrder.length = 8) && decide cfg.keyByteOrder.Nodup

/-- `dout` before the first command has settled: "unspecified (any value)" (R25, R82). A free value, log entry 4. -/
opaque Config.powerUpDout : Key

end Sys2Proof
end

