-- ==== Sys2Proof/Machine/State.lean ====
section
/-! DEFINITION. What the machine holds. The block itself holds no state at all (R17: the empty state type). What stands
here are its three ports (R15), which is all that can be seen of it, and the integrator's program (R20). Log entries 1
and 2. -/

namespace Sys2Proof.Machine

/-- Why the machine stops with a fault. "The list is empty" (R70): no command of the block traps, stalls or hangs (R69),
so there is no constructor. -/
inductive Fault where
  deriving DecidableEq, Repr

/-- Why the machine refuses to go on. -/
inductive Refusal where
  /-- Raised by an arm of `exec` whose instruction has no meaning yet (none has been left so). Safe: the machine stops. -/
  | notModelled (mnemonic : String)
  /-- Raised by `step` when an input port is not driven with defined 2-state values in every bit: "An undriven, X or Z
  input is outside the model, and a model refuses such a command" (92_eei_decisions.md D14, U6). Safe: the machine stops. -/
  | undrivenInput
  /-- Raised by `step` when `dout` reaches an input port through a path with no register: "A model refuses such a wiring
  rather than computing a fixed point" (R86, U7). Safe: the machine stops. -/
  | combinationalLoop
  deriving DecidableEq, Repr

/-- What the integrator applies to an input port of `n` bits. -/
inductive Drive (n : Nat) where
  /-- Defined 2-state values, held stable (R83, R84). -/
  | bits (v : BitVec n)
  /-- At least one bit is X, Z or not driven (92_eei_decisions.md D14). -/
  | undriven
  /-- At least one bit comes combinationally from `dout` (R86). -/
  | feedback
  deriving DecidableEq, Repr

/-- The two input ports (R15). -/
structure Inputs where
  /-- The port `op`. -/
  op : Drive 1
  /-- The port `din`. -/
  din : Drive 64
  deriving DecidableEq, Repr

/-- Where the integrator takes the next value of `din` from. -/
inductive DinSource where
  /-- The port is driven directly. -/
  | port (d : Drive 64)
  /-- The integrator's register that sampled the last settled `dout`: "each through a registered or sampled value" (R86;
  `r` of 95_test_vectors.md P1 and P4). -/
  | sampledDout
  deriving DecidableEq, Repr

/-- One presentation of `(op, din)` on the block's inputs (R13, "Command"), as the integrator plans it. -/
structure Presentation where
  op : Drive 1
  din : DinSource
  deriving DecidableEq, Repr

/-- The machine: the ports of R15 and the integrator's list of commands (R20). -/
structure State where
  /-- What is on the input ports `op` and `din` now. -/
  inputs : Inputs
  /-- The last settled value of the output port `dout`, which the integrator has sampled (R16, R84). -/
  dout : Key
  /-- What the integrator presents next, in order (R20). -/
  pending : List Presentation
  deriving DecidableEq, Repr

/-- The presentation of a command word with 2-state values on both ports (R36). -/
def Presentation.ofWord (w : CommandWord) : Presentation := ⟨.bits w.op, .port (.bits w.din)⟩

/-- The machine after power-up. A system reset does nothing to the block (R81); the spec gives `op` and `din` no value
and `dout` is any value until the inputs have settled (R25, R82). DESIGN CHOICE, log entries 2, 3 and 4. -/
def State.reset : State where
  inputs := ⟨.undriven, .undriven⟩
  dout := Config.powerUpDout
  pending := []

/-- The same state with the settled output `v`: all that a command changes (R30). -/
def State.withDout (s : State) (v : Key) : State := { s with dout := v }

/-- The same state with `i` on the input ports and `rest` still to be presented. -/
def State.withInputs (s : State) (i : Inputs) (rest : List Presentation) : State :=
  { s with inputs := i, pending := rest }

/-- The same state with the program `ws` to be presented, in order (R20). -/
def State.withProgram (s : State) (ws : List CommandWord) : State :=
  { s with pending := ws.map Presentation.ofWord }

end Sys2Proof.Machine
end

