-- ==== Sys2Proof/Machine/Ops.lean ====
section
/-! DEFINITION. The datapath of 40_part1by1.md (masks, spreader, compactor), the two operations of 41_encode_decode.md
and the dispatch function `F` of R57. The block takes no exception and returns from none (R69, R74, R75), so there is no
entry operation here. -/

namespace Sys2Proof.Machine

/-! The magic constants of R43, and `MASK_32` of R51. -/

def mask16 : Key := 0x0000FFFF0000FFFF#64
def mask8 : Key := 0x00FF00FF00FF00FF#64
def mask4 : Key := 0x0F0F0F0F0F0F0F0F#64
def mask2 : Key := 0x3333333333333333#64
def mask1 : Key := 0x5555555555555555#64
def mask32 : Key := 0x00000000FFFFFFFF#64

/-- One spread stage: `(t XOR (t << s)) AND mask` (R45). -/
def spreadRound (s : Nat) (mask t : Key) : Key := (t ^^^ (t <<< s)) &&& mask

/-- One compact stage: `(u XOR (u >> s)) AND mask` (R52). -/
def compactRound (s : Nat) (mask u : Key) : Key := (u ^^^ (u >>> s)) &&& mask

/-! The values `t0` to `t5` of R45. They belong to the reference realisation; no port shows them (R47, D9). -/

def spreadT0 (v : Coord) : Key := zext64 v
def spreadT1 (v : Coord) : Key := spreadRound 16 mask16 (spreadT0 v)
def spreadT2 (v : Coord) : Key := spreadRound 8 mask8 (spreadT1 v)
def spreadT3 (v : Coord) : Key := spreadRound 4 mask4 (spreadT2 v)
def spreadT4 (v : Coord) : Key := spreadRound 2 mask2 (spreadT3 v)
def spreadT5 (v : Coord) : Key := spreadRound 1 mask1 (spreadT4 v)

/-- The spreader `part1by1` (R45). -/
def part1by1 (v : Coord) : Key := spreadT5 v

/-! The values `u0` to `u5` of R52. -/

def compactU0 (k : Key) : Key := k &&& mask1
def compactU1 (k : Key) : Key := compactRound 1 mask2 (compactU0 k)
def compactU2 (k : Key) : Key := compactRound 2 mask4 (compactU1 k)
def compactU3 (k : Key) : Key := compactRound 4 mask8 (compactU2 k)
def compactU4 (k : Key) : Key := compactRound 8 mask16 (compactU3 k)
def compactU5 (k : Key) : Key := compactRound 16 mask32 (compactU4 k)

/-- The compactor `compact1by1` (R52). -/
def compact1by1 (k : Key) : Coord := trunc32 (compactU5 k)

/-- `P(i, s) = 2i - (i mod s)`: where a stage whose shift is `s` leaves bit `i` (R47). -/
def stagePosition (i s : Nat) : Nat := 2 * i - i % s

/-- `part1by1(y) << 1`, the first operand of ENCODE's addition (R59). -/
def spreadOdd (y : Coord) : Key := part1by1 y <<< 1

/-- `part1by1(x)`, the second operand of ENCODE's addition (R59). -/
def spreadEven (x : Coord) : Key := part1by1 x

/-- The key of `x` and `y`: `(ey + ex) mod 2^64` (R59). -/
def interleave (x y : Coord) : Key := spreadOdd y + spreadEven x

/-- `x`, from the even bits of a key (R63). -/
def evenBits (key : Key) : Coord := compact1by1 key

/-- `y`, from the odd bits of a key: shift first, then the pre-mask inside the compactor (R63, R64). -/
def oddBits (key : Key) : Coord := compact1by1 (key >>> 1)

/-- `y ++ x`: the layout of ENCODE's operand word and of DECODE's result word (R36). -/
def packPair (x y : Coord) : Key := (y ++ x : BitVec (32 + 32))

/-- `ENCODE(din)` (R59). -/
def encodeDin (din : Key) : Key := interleave (din.extractLsb' 0 32) (din.extractLsb' 32 32)

/-- `DECODE(din)` (R63). -/
def decodeDin (din : Key) : Key := packPair (evenBits din) (oddBits din)

/-- `F(op, din)` of R57: the settled `dout`. -/
def blockF (op : BitVec 1) (din : Key) : Key := if op = 0#1 then encodeDin din else decodeDin din

/-- `F` of a command word. -/
def blockWord (w : CommandWord) : Key := blockF w.op w.din

end Sys2Proof.Machine
end

