-- ==== Sys2Proof/Machine/Operands.lean ====
section
/-! DEFINITION. How the operands reach the block: the value on an input port, and the integrator's presentation of the
next command (R38, R83, R84, R86). No operand names a register or an address (R19, R26). -/

namespace Sys2Proof.Machine

/-- The 2-state value of a port, or the name under which the model refuses it (D14, R86). -/
def Drive.value {n : Nat} : Drive n → Except Refusal (BitVec n)
  | .bits v => .ok v
  | .undriven => .error .undrivenInput
  | .feedback => .error .combinationalLoop

/-- The command word on the input ports, `cmd = op ++ din` (R36). Where both ports are refused the name is that of `op`
(DESIGN CHOICE, log entry 6). -/
def Inputs.word (i : Inputs) : Except Refusal CommandWord :=
  match i.op.value, i.din.value with
  | .ok op, .ok din => .ok (command op din)
  | .ok _, .error r => .error r
  | .error r, _ => .error r

/-- What a presentation puts on the input ports, where the integrator's register holds `sample` (R86). -/
def Presentation.resolve (p : Presentation) (sample : Key) : Inputs :=
  match p.din with
  | .port d => ⟨p.op, d⟩
  | .sampledDout => ⟨p.op, .bits sample⟩

/-- The integrator presents its next command; with none left it holds its inputs as they are (R84). The value it sampled
is the last settled `dout`. -/
def present (s : State) : State :=
  match s.pending with
  | [] => s
  | p :: rest => s.withInputs (p.resolve s.dout) rest

end Sys2Proof.Machine
end

