-- ==== Sys2Proof/Machine/MortonDecode.lean ====
section
/-! DEFINITION. The meaning of DECODE (R63). -/

namespace Sys2Proof.Machine

/-- DECODE drives `dout` with `y ++ x`, the odd and the even bits of the key, and changes nothing else (R63, R30). -/
def execDecode (key : Key) (s : State) : Host.Outcome State Fault Refusal :=
  .next (s.withDout (packPair (evenBits key) (oddBits key)))

end Sys2Proof.Machine
end

