-- ==== Sys2Proof/Machine/MortonEncode.lean ====
section
/-! DEFINITION. The meaning of ENCODE (R59). -/

namespace Sys2Proof.Machine

/-- ENCODE drives `dout` with the key of `x` and `y` and changes nothing else: no flag, no exception (R59, R30). -/
def execEncode (x y : Coord) (s : State) : Host.Outcome State Fault Refusal := .next (s.withDout (interleave x y))

end Sys2Proof.Machine
end

