-- ==== Sys2Proof/Machine/Dispatch.lean ====
section
/-! DEFINITION. One arm per command (R57). -/

namespace Sys2Proof.Machine

def exec (i : Instr) (s : State) : Host.Outcome State Fault Refusal :=
  match i with
  | .encode x y => Sys2Proof.Machine.execEncode x y s
  | .decode key => Sys2Proof.Machine.execDecode key s

end Sys2Proof.Machine
end

