-- ==== Sys2Proof/Machine/Step.lean ====
section
/-! DEFINITION. One step: the integrator presents a command, the block settles, `dout` is sampled (R20, R84). The model has
no time and observes `dout` only at settled points (R84); log entry 5. -/

namespace Sys2Proof.Machine

/-- Run the command that stands on the input ports, or refuse the inputs (R57; D14; R86). -/
def settle (s : State) : Host.Outcome State Fault Refusal :=
  match s.inputs.word with
  | .ok w => exec (decodeWord w) s
  | .error r => .refused r

/-- One presented and settled command. -/
def step (s : State) : Host.Outcome State Fault Refusal := settle (present s)

/-- The state in which the integrator's next presentation is the command with the bits `w` (numbered as the opcode table
numbers them; bits above `cmd[64]`, which no command has, are dropped). Log entry 2. -/
def State.withFetchWord (s : State) (nbits w : Nat) : State :=
  { s with pending := Presentation.ofWord (BitVec.ofNat 65 (tableNumber nbits w)) :: s.pending.tail }

end Sys2Proof.Machine
end

