-- ==== Sys2Proof/Machine/Assembler.lean ====
section
/-! DEFINITION. The assembler syntax of R41: `ENCODE <x>, <y>`, `DECODE <key>`, and the text of a command word,
`<op>:<din>`. A text is a list of characters. What R41 leaves open (blanks, the digit separator, what else is refused) is
a DESIGN CHOICE, log entry 10. -/

namespace Sys2Proof.Machine

/-- Why the assembler refuses a text. -/
inductive AsmError where
  /-- The text does not begin with a mnemonic of R37 that blanks follow. -/
  | unknownMnemonic
  /-- The command has another number of operands (R41). -/
  | operandCount
  /-- An operand is no numeral. -/
  | badNumeral
  /-- "A numeral that does not fit its field is a syntax error" (R41, U8). -/
  | numeralTooWide
  /-- The text is not `<op>:<din>` with `op` 0 or 1 (R41). -/
  | badCommandWord
  deriving DecidableEq, Repr

/-- A textual command whose numerals are read: refused where one does not fit, "and nothing truncates it" (R41). -/
def assemble (c : SourceCommand) : Except AsmError Instr :=
  if c.wellFormed then
    match c with
    | .encode x y => .ok (.encode (BitVec.ofNat 32 x) (BitVec.ofNat 32 y))
    | .decode key => .ok (.decode (BitVec.ofNat 64 key))
  else .error .numeralTooWide

/-! ## Reading -/

def isBlank (c : Char) : Bool := c == ' ' || c == '\t'

/-- The text without the blanks at its two ends. -/
def trimBlanks (t : List Char) : List Char := ((t.dropWhile isBlank).reverse.dropWhile isBlank).reverse

/-- The value of a digit in base 10 or 16. -/
def digitValue (base : Nat) (c : Char) : Option Nat :=
  let n := c.toNat
  let v := if 48 ≤ n ∧ n ≤ 57 then some (n - 48)
    else if 65 ≤ n ∧ n ≤ 70 then some (n - 55)
    else if 97 ≤ n ∧ n ≤ 102 then some (n - 87)
    else none
  v.filter (fun d => decide (d < base))

/-- The number that digits make after `acc`. `_` stands between two digits only (R11); `afterDigit` says that the character
before was a digit. -/
def digitsValue (base : Nat) (afterDigit : Bool) (acc : Nat) : List Char → Option Nat
  | [] => if afterDigit then some acc else none
  | c :: cs =>
    if c = '_' then (if afterDigit then digitsValue base false acc cs else none)
    else
      match digitValue base c with
      | some d => digitsValue base true (acc * base + d) cs
      | none => none

/-- A numeral, "written in hexadecimal `0x...` or decimal" (R41). -/
def numeral : List Char → Option Nat
  | '0' :: 'x' :: ds => digitsValue 16 false 0 ds
  | ds => digitsValue 10 false 0 ds

/-- The texts between the commas. -/
def splitAtCommas : List Char → List (List Char)
  | [] => [[]]
  | c :: cs =>
    if c = ',' then [] :: splitAtCommas cs
    else
      match splitAtCommas cs with
      | [] => [[c]]
      | t :: ts => (c :: t) :: ts

/-- "Mnemonics are case-insensitive" (R41). -/
def mnemonicOf (name : List Char) : Option Mnemonic :=
  if name.map Char.toUpper = ['E', 'N', 'C', 'O', 'D', 'E'] then some .ENCODE
  else if name.map Char.toUpper = ['D', 'E', 'C', 'O', 'D', 'E'] then some .DECODE
  else none

/-- The operands of a textual command, `x` first (R41). -/
def sourceOf : Mnemonic → List (List Char) → Except AsmError SourceCommand
  | .ENCODE, [tx, ty] =>
    match numeral tx, numeral ty with
    | some x, some y => .ok (.encode x y)
    | _, _ => .error .badNumeral
  | .DECODE, [tk] =>
    match numeral tk with
    | some key => .ok (.decode key)
    | none => .error .badNumeral
  | _, _ => .error .operandCount

/-- Read a textual command (R41). -/
def parseSource (text : List Char) : Except AsmError SourceCommand :=
  let t := trimBlanks text
  let name := t.takeWhile Char.isAlpha
  let rest := t.dropWhile Char.isAlpha
  match mnemonicOf name, rest with
  | some m, c :: _ =>
    if isBlank c then sourceOf m ((splitAtCommas rest).map trimBlanks) else .error .unknownMnemonic
  | some _, [] => .error .operandCount
  | none, _ => .error .unknownMnemonic

/-- The command of a text: "Every textual command maps to exactly one command word" (R42), that of this command. -/
def assembleText (text : List Char) : Except AsmError Instr :=
  match parseSource text with
  | .ok c => assemble c
  | .error e => .error e

/-- Read a command word `<op>:<din>` in hexadecimal (R41). -/
def parseWord (text : List Char) : Except AsmError CommandWord :=
  match text with
  | o :: ':' :: ds =>
    match digitValue 2 o, digitsValue 16 false 0 ds with
    | some op, some din =>
      if din < 2 ^ 64 then .ok (command (BitVec.ofNat 1 op) (BitVec.ofNat 64 din)) else .error .numeralTooWide
    | _, _ => .error .badCommandWord
  | _ => .error .badCommandWord

/-! ## Writing -/

/-- The upper-case hexadecimal digit of `d < 16`. -/
def hexDigit (d : Nat) : Char := if d < 10 then Char.ofNat (48 + d) else Char.ofNat (55 + d)

/-- `v` in `n` hexadecimal digits. -/
def hexDigits : Nat → Nat → List Char
  | 0, _ => []
  | n + 1, v => hexDigits n (v / 16) ++ [hexDigit (v % 16)]

/-- The text of a command in the syntax of R41. -/
def commandText : Instr → List Char
  | .encode x y =>
    ['E', 'N', 'C', 'O', 'D', 'E', ' ', '0', 'x'] ++ hexDigits 8 x.toNat ++ [',', ' ', '0', 'x'] ++ hexDigits 8 y.toNat
  | .decode key => ['D', 'E', 'C', 'O', 'D', 'E', ' ', '0', 'x'] ++ hexDigits 16 key.toNat

/-- The text of a command word, `<op>:<din[63:32]>_<din[31:0]>` (R41, 95_test_vectors.md Notation). -/
def wordText (w : CommandWord) : List Char :=
  [hexDigit w.op.toNat, ':'] ++ hexDigits 8 (w.din.toNat / 2 ^ 32) ++ ['_'] ++ hexDigits 8 (w.din.toNat % 2 ^ 32)

end Sys2Proof.Machine
end

