-- ==== Sys2Proof/Machine/Flags.lean ====
section
/-! DEFINITION. The block has no flags: "No operation sets or reads a carry, zero, overflow or any other status bit"
(R21). The one thing here is the carry inside ENCODE's addition, so that R60's "no carry at any position" can be said. -/

namespace Sys2Proof.Machine

/-- The carry into bit `q` of ENCODE's addition `ey + ex`; at `q = 64` the carry out (R60). No port shows it. -/
def encodeCarry (q : Nat) (x y : Coord) : Bool := BitVec.carry q (spreadOdd y) (spreadEven x) false

end Sys2Proof.Machine
end

