-- ==== Sys2Proof/Machine/KeyBytes.lean ====
section
/-! DEFINITION. A 64-bit value in an integrator's byte memory under `KEY_BYTE_ORDER` (R28). The block itself has no byte
interface and no rule of it reads the parameter. -/

namespace Sys2Proof.Machine

/-- Byte `b` of a 64-bit value, byte 0 the bits of least weight. -/
def keyByte (k : Key) (b : Fin 8) : Byte := k.extractLsb' (8 * b.val) 8

/-- The eight bytes an integrator stores for `k`, offset 0 first. -/
def storeKey (cfg : Config) (k : Key) : List Byte := cfg.keyByteOrder.map (keyByte k)

/-- The value with the byte `v` in place `b` and zeros elsewhere. -/
def placeByte (b : Fin 8) (v : Byte) : Key := v.setWidth 64 <<< (8 * b.val)

/-- The value of the bytes `bs`, read back in the same order. -/
def loadKey (cfg : Config) (bs : List Byte) : Key :=
  (cfg.keyByteOrder.zip bs).foldr (fun p acc => placeByte p.1 p.2 ||| acc) 0#64

end Sys2Proof.Machine
end

