-- ==== Sys2Proof/Machine/Settling.lean ====
section
/-! DEFINITION. The settling rule of R82 and R84 over time. `step` observes `dout` at settled points only; this file says
what the integrator must do for its samples to be those points. Times are natural numbers in an unnamed unit, the unit
of `T_PD` (DESIGN CHOICE, log entry 5). What `dout` shows before it has settled is the argument `unsettled`, any
function of time (U3). -/

namespace Sys2Proof.Machine

/-- From `time` on the input ports carry `inputs`. -/
structure InputEvent where
  time : Nat
  inputs : Inputs
  deriving DecidableEq, Repr

/-- What the input ports carry, and since when they have carried it unchanged. -/
structure StableInputs where
  since : Nat
  inputs : Inputs
  deriving DecidableEq, Repr

/-- The stable inputs after the events `w`, newest first. Driving a port with the value it already has is no change. -/
def stableInputs : List InputEvent → Option StableInputs
  | [] => none
  | e :: older =>
    match stableInputs older with
    | some st => if st.inputs = e.inputs then some st else some ⟨e.time, e.inputs⟩
    | none => some ⟨e.time, e.inputs⟩

/-- The events of `w` up to the time `t`. An input driven at `t` is on its port at `t`. -/
def eventsUpTo (w : List InputEvent) (t : Nat) : List InputEvent := w.filter (fun e => decide (e.time ≤ t))

/-- `dout` at the time `t`: `F(op, din)` once the inputs have been stable, with 2-state values, for `T_PD` after power is
good; any value before (R82, R84). -/
def doutAt (cfg : Config) (unsettled : Nat → Key) (powerGood : Nat) (w : List InputEvent) (t : Nat) : Key :=
  match stableInputs (eventsUpTo w t) with
  | none => unsettled t
  | some st =>
    match st.inputs.word with
    | .error _ => unsettled t
    | .ok cmd => if max powerGood st.since + cfg.tPD ≤ t then blockWord cmd else unsettled t

/-- The integrator presents the command `word` at `present` and samples `dout` at `sample`. -/
structure Slot where
  word : CommandWord
  present : Nat
  sample : Nat
  deriving DecidableEq, Repr

/-- The 2-state inputs of a command word. -/
def wordInputs (w : CommandWord) : Inputs := ⟨.bits w.op, .bits w.din⟩

/-- The input events of a schedule, newest first. -/
def scheduleEvents (slots : List Slot) : List InputEvent :=
  (slots.map (fun a => InputEvent.mk a.present (wordInputs a.word))).reverse

/-- What the input ports have carried, newest first, when slot `a` is sampled: what `a` and the slots `done` before it
presented, and what a later slot presents before the sample (harmless only as a repeat). DESIGN CHOICE (log entry 14): an
input that a later slot presents at the very instant of the sample comes after the sample. -/
def eventsAtSample (done : List Slot) (a : Slot) (later : List Slot) : List InputEvent :=
  scheduleEvents (done ++ a :: later.filter (fun b => decide (b.present < a.sample)))

/-- Slot `a` keeps the settling rule of R84, read off the ports: when it is sampled they carry its command, have carried it
unchanged since `a` presented it or longer, and have done so for `T_PD` after the last input change and after power is
good. Presenting a command that is on the ports already is no change (log entry 5). -/
def slotKeepsSettling (cfg : Config) (powerGood : Nat) (done : List Slot) (a : Slot) (later : List Slot) : Bool :=
  match stableInputs (eventsUpTo (eventsAtSample done a later) a.sample) with
  | none => false
  | some st =>
    decide (st.inputs = wordInputs a.word) && decide (st.since ≤ a.present) && decide (a.present ≤ a.sample)
      && decide (max powerGood st.since + cfg.tPD ≤ a.sample)

/-- The slots after `done` are in the order of their presentations and each keeps the settling rule. -/
def keepsSettlingAfter (cfg : Config) (powerGood : Nat) (done : List Slot) : List Slot → Bool
  | [] => true
  | a :: later =>
    slotKeepsSettling cfg powerGood done a later && later.all (fun b => decide (a.present ≤ b.present))
      && keepsSettlingAfter cfg powerGood (done ++ [a]) later

/-- The integrator keeps the settling rule of R84: it holds `op` and `din` stable from the moment it presents a command until
it samples `dout`, no earlier than `T_PD` after the last input change and after power is good. Slots in the order of their
presentations. DESIGN CHOICE (log entry 14): R84 leaves open whether the inputs may change at the very instant of the
sample; here they may. -/
def keepsSettling (cfg : Config) (powerGood : Nat) (slots : List Slot) : Bool := keepsSettlingAfter cfg powerGood [] slots

/-- What the integrator samples in the slots after `done`, in order. -/
def samplesAfter (cfg : Config) (unsettled : Nat → Key) (powerGood : Nat) (done : List Slot) : List Slot → List Key
  | [] => []
  | a :: later =>
    doutAt cfg unsettled powerGood (eventsAtSample done a later) a.sample ::
      samplesAfter cfg unsettled powerGood (done ++ [a]) later

/-- What the integrator samples, in order. -/
def scheduleSamples (cfg : Config) (unsettled : Nat → Key) (powerGood : Nat) (slots : List Slot) : List Key :=
  samplesAfter cfg unsettled powerGood [] slots

/-- The synchronous case of R84: from clock edge `edge` on, one command each `period`, presented `clockToOut` after its
edge and sampled by a register that needs its input `setup` before the next edge. -/
def clockedSlots (period clockToOut setup : Nat) : Nat → List CommandWord → List Slot
  | _, [] => []
  | edge, w :: ws =>
    ⟨w, edge * period + clockToOut, (edge + 1) * period - setup⟩ :: clockedSlots period clockToOut setup (edge + 1) ws

end Sys2Proof.Machine
end

