-- ==== Sys2Proof/Safety.lean ====
section
/-! DEFINITION. What a safe run of the machine is, in the terms the statements use. -/

namespace Sys2Proof.Machine

/-- The integrator keeps R83 and R86 for this presentation: both ports get 2-state values, none through a combinational
loop. -/
def Presentation.driven (p : Presentation) : Bool :=
  match p.op, p.din with
  | .bits _, .port (.bits _) => true
  | .bits _, .sampledDout => true
  | _, _ => false

/-- Both input ports carry 2-state values (R83). -/
def Inputs.driven (i : Inputs) : Bool :=
  match i.op, i.din with
  | .bits _, .bits _ => true
  | _, _ => false

/-- The integrator presents only driven commands, and there is one on the ports or one to come (R83, R86). -/
def State.safe (s : State) : Bool := s.pending.all Presentation.driven && (s.inputs.driven || !s.pending.isEmpty)

/-- Wherever the input ports carry a command, `dout` is its result (R16): what a settled machine looks like. -/
def State.Settled (s : State) : Prop := ∀ w, s.inputs.word = .ok w → s.dout = blockWord w

/-- What every step keeps: a settled machine (R16) whose integrator presents only driven commands (R83, R86). -/
def State.Inv (s : State) : Prop := s.Settled ∧ s.pending.all Presentation.driven = true

/-- The settled `dout` after each of `n` steps, ending early where the machine stops: the end state of a program is "the
list of `dout` values" (95_test_vectors.md L3). -/
def trace : Nat → State → List Key
  | 0, _ => []
  | n + 1, s =>
    match step s with
    | .next t => t.dout :: trace n t
    | .fault _ => []
    | .refused _ => []

end Sys2Proof.Machine
end

