-- ==== Sys2Proof/Certificates/Slice0/Obligations.lean ====
section
/-! DEFINITION. The statements for the provers, from the rules of spec/. In a title, "spec's derivation" marks a rule that
the spec itself marks [derived]; "model's choice" names the log entry a statement rests on. -/

open Sys2Proof Sys2Proof.Machine

/-! ## Command words -/

/-- Decoding and encoding agree on every command and on every command word: no bit of CMD-ENC or CMD-DEC is dropped
(formats of 30_encoding.md). -/
def Obligations.DecodingInvertsEncoding : Prop :=
  (∀ i : Instr, decodeWord (encodeWord i) = i) ∧ ∀ w : CommandWord, encodeWord (decodeWord w) = w

/-- The table of R37: `op` alone selects, each row's match and mask admit exactly the words of its operation, and words
with the same `cmd[64]` select the same operation. -/
def Obligations.OpcodeTableSelectsOperation : Prop :=
  (∀ w : CommandWord,
    ((decodeWord w).mnemonic = .ENCODE ↔ w.getLsbD 64 = false) ∧
    ((decodeWord w).mnemonic = .DECODE ↔ w.getLsbD 64 = true) ∧
    (w &&& 0x10000000000000000#65 = 0x00000000000000000#65 ↔ (decodeWord w).mnemonic = .ENCODE) ∧
    (w &&& 0x10000000000000000#65 = 0x10000000000000000#65 ↔ (decodeWord w).mnemonic = .DECODE) ∧
    (opcodeTable.filter (fun r => r.admits w)).map (fun r => r.mnemonic) = [(decodeWord w).mnemonic]) ∧
  ∀ w w' : CommandWord, w.getLsbD 64 = w'.getLsbD 64 → (decodeWord w).mnemonic = (decodeWord w').mnemonic

/-- R39: each of the 2^65 command words is accepted by the decoder, is well-formed, and runs to a next state from every
state. -/
def Obligations.EveryCommandWordIsLegal : Prop :=
  ∀ w : CommandWord, decodeNumber w.toNat = .ok (decodeWord w) ∧ (decodeWord w).wellFormed = true ∧
    ∀ s : State, ∃ t : State, exec (decodeWord w) s = .next t

/-- R38: where the operands stand on `din`, that each is zero-extended inside the spreader, and that every value of every
field is an operand of some `din`. -/
def Obligations.OperandAssembly : Prop :=
  (∀ din : Key, decodeWord (command 0#1 din) = .encode (din.extractLsb' 0 32) (din.extractLsb' 32 32) ∧
    decodeWord (command 1#1 din) = .decode din) ∧
  (∀ v : Coord, (spreadT0 v).toNat = v.toNat) ∧
  ∀ x y : Coord, ∃ din : Key, decodeWord (command 0#1 din) = .encode x y

/-- A number is read as a command exactly when it has no bit above `cmd[64]`, and the table's reading of a word is the
decoder's (length of 30_encoding.md; model's choice of what happens above bit 64, log entry 9). -/
def Obligations.OnlyWiderNumbersAreRejected : Prop :=
  ∀ nbits n : Nat,
    (n < 2 ^ 65 → n < 2 ^ nbits → decodeTableWord nbits n = some (decodeWord (BitVec.ofNat 65 n))) ∧
    (2 ^ 65 ≤ n → decodeNumber n = .error .longerThanCommand) ∧
    (2 ^ 65 ≤ n → n < 2 ^ nbits → decodeTableWord nbits n = none)

/-- The two command words of 95_test_vectors.md L1-1 and L1-2 are read as the commands written there. -/
def Obligations.DecodedWordsOfTheKnownVector : Prop :=
  decodeWord 0x00045678900123456#65 = .encode 0x00123456#32 0x00456789#32 ∧
  decodeWord 0x1000021262D3A9196#65 = .decode 0x000021262D3A9196#64

/-! ## The two operations -/

/-- R59: with `op = 0`, from every state, `dout` becomes `(part1by1(y) << 1) + part1by1(x)`, which is the OR of the two;
nothing else changes (no flag exists, no exception). With the rule's worked example. -/
def Obligations.EncodeResult : Prop :=
  (∀ (din : Key) (s : State),
    exec (decodeWord (command 0#1 din)) s =
      .next { s with dout := (part1by1 (din.extractLsb' 32 32) <<< 1) + part1by1 (din.extractLsb' 0 32) } ∧
    (part1by1 (din.extractLsb' 32 32) <<< 1) + part1by1 (din.extractLsb' 0 32) =
      (part1by1 (din.extractLsb' 32 32) <<< 1) ||| part1by1 (din.extractLsb' 0 32)) ∧
  ∀ s : State, exec (.encode 0x00123456#32 0x00456789#32) s = .next { s with dout := 0x000021262D3A9196#64 }

/-- R63: with `op = 1`, from every state, `dout[63:32]` becomes `compact1by1(key >> 1)` and `dout[31:0]` becomes
`compact1by1(key)`; nothing else changes. With the rule's worked example. -/
def Obligations.DecodeResult : Prop :=
  (∀ (din : Key) (s : State), ∃ t : State,
    exec (decodeWord (command 1#1 din)) s = .next t ∧
    t.dout.extractLsb' 32 32 = compact1by1 (din >>> 1) ∧ t.dout.extractLsb' 0 32 = compact1by1 din ∧
    t.inputs = s.inputs ∧ t.pending = s.pending) ∧
  ∀ s : State, exec (.decode 0x000021262D3A9196#64) s = .next { s with dout := 0x0045678900123456#64 }

/-- R58: the key layout, for both operations: `key[2i] = x[i]` and `key[2i+1] = y[i]`, for all 32 places, so all 64 bits
of the key. -/
def Obligations.KeyLayoutOfBothOperations : Prop :=
  (∀ (x y : Coord) (s : State), ∃ t : State, exec (.encode x y) s = .next t ∧
    ∀ i, i < 32 → t.dout.getLsbD (2 * i) = x.getLsbD i ∧ t.dout.getLsbD (2 * i + 1) = y.getLsbD i) ∧
  ∀ (key : Key) (s : State), ∃ t : State, exec (.decode key) s = .next t ∧
    ∀ i, i < 32 → key.getLsbD (2 * i) = (t.dout.extractLsb' 0 32).getLsbD i ∧
      key.getLsbD (2 * i + 1) = (t.dout.extractLsb' 32 32).getLsbD i

/-- R57: the command on the ports selects one of the two results computed from the same `din`, and only that result
reaches `dout`. -/
def Obligations.DispatchSelectsOneResult : Prop :=
  ∀ (op : BitVec 1) (din : Key) (s : State),
    exec (decodeWord (command op din)) s = .next { s with dout := if op = 0#1 then encodeDin din else decodeDin din }

/-- The frame of both commands: whatever command runs, the input ports and the integrator's list of commands are as
before ("presenting a value changes nothing but `dout`", widths and atomicity of 20_memory.md). -/
def Obligations.CommandChangesOnlyDout : Prop :=
  ∀ (i : Instr) (s : State), ∃ t : State, exec i s = .next t ∧ t = { s with dout := t.dout }

/-- Each of the 64 bits of the result is a wire from one bit of `din`, by the four equations of the timing section of
70_reset_and_hazards.md (spec's derivation); so turning a bit of `din` over turns over one bit of the result, in a place
that depends on `op` alone. -/
def Obligations.EachOperandBitDrivesOneResultBit : Prop :=
  (∀ (din : Key) (i : Nat), i < 32 →
    (blockF 0#1 din).getLsbD (2 * i) = din.getLsbD i ∧ (blockF 0#1 din).getLsbD (2 * i + 1) = din.getLsbD (32 + i) ∧
    (blockF 1#1 din).getLsbD i = din.getLsbD (2 * i) ∧ (blockF 1#1 din).getLsbD (32 + i) = din.getLsbD (2 * i + 1)) ∧
  ∀ (op : BitVec 1) (j : Nat), j < 64 → ∃ q, q < 64 ∧
    ∀ din : Key, blockF op (din ^^^ (1#64 <<< j)) = blockF op din ^^^ (1#64 <<< q)

/-! ## The spreader and the compactor (spec's derivations in 40_part1by1.md) -/

/-- The mask law: bit `q` of `MASK_s` is 1 if and only if `(q mod 2s) < s`. -/
def Obligations.MaskLaw : Prop :=
  ∀ q, q < 64 →
    mask1.getLsbD q = decide (q % 2 < 1) ∧ mask2.getLsbD q = decide (q % 4 < 2) ∧
    mask4.getLsbD q = decide (q % 8 < 4) ∧ mask8.getLsbD q = decide (q % 16 < 8) ∧
    mask16.getLsbD q = decide (q % 32 < 16) ∧ mask32.getLsbD q = decide (q % 64 < 32)

/-- The closed form of `part1by1`, and that it is the only value with the bits of `v` on its even bits and none on its odd
bits. -/
def Obligations.SpreadClosedForm : Prop :=
  ∀ v : Coord,
    (∀ i, i < 32 → (part1by1 v).getLsbD (2 * i) = v.getLsbD i ∧ (part1by1 v).getLsbD (2 * i + 1) = false) ∧
    ∀ k : Key, k &&& 0xAAAAAAAAAAAAAAAA#64 = 0#64 → (∀ i, i < 32 → k.getLsbD (2 * i) = v.getLsbD i) → k = part1by1 v

/-- The closed form of `compact1by1`: bit `i` of the result is bit `2i` of the operand, so the odd bits do not matter. -/
def Obligations.CompactClosedForm : Prop :=
  ∀ k : Key, (∀ i, i < 32 → (compact1by1 k).getLsbD i = k.getLsbD (2 * i)) ∧
    ∀ k' : Key, k &&& 0x5555555555555555#64 = k' &&& 0x5555555555555555#64 → compact1by1 k = compact1by1 k'

/-- `t` holds the bits `bit 0` to `bit 31` at the places `P(i, s)`, has zeros everywhere else, and can be nonzero only where
`q mod 2s < s` (a row of the stage table of 40_part1by1.md). -/
def Sys2Proof.Machine.StageLayout (s : Nat) (bit : Nat → Bool) (t : Key) : Prop :=
  (∀ i, i < 32 → t.getLsbD (stagePosition i s) = bit i) ∧
  (∀ q, q < 64 → (∀ i, i < 32 → q ≠ stagePosition i s) → t.getLsbD q = false) ∧
  ∀ q, q < 64 → t.getLsbD q = true → q % (2 * s) < s

/-- The stage invariant of the spread cascade of the reference realisation. -/
def Obligations.SpreadStageInvariant : Prop :=
  ∀ v : Coord,
    StageLayout 32 v.getLsbD (spreadT0 v) ∧ StageLayout 16 v.getLsbD (spreadT1 v) ∧
    StageLayout 8 v.getLsbD (spreadT2 v) ∧ StageLayout 4 v.getLsbD (spreadT3 v) ∧
    StageLayout 2 v.getLsbD (spreadT4 v) ∧ StageLayout 1 v.getLsbD (spreadT5 v)

/-- The stage invariant of the compact cascade of the reference realisation, and that on a spread value it passes through
the spread cascade's values in reverse. -/
def Obligations.CompactStageInvariantAndMirror : Prop :=
  (∀ k : Key,
    StageLayout 1 (fun i => k.getLsbD (2 * i)) (compactU0 k) ∧ StageLayout 2 (fun i => k.getLsbD (2 * i)) (compactU1 k) ∧
    StageLayout 4 (fun i => k.getLsbD (2 * i)) (compactU2 k) ∧ StageLayout 8 (fun i => k.getLsbD (2 * i)) (compactU3 k) ∧
    StageLayout 16 (fun i => k.getLsbD (2 * i)) (compactU4 k) ∧
    StageLayout 32 (fun i => k.getLsbD (2 * i)) (compactU5 k)) ∧
  ∀ v : Coord,
    compactU0 (part1by1 v) = spreadT5 v ∧ compactU1 (part1by1 v) = spreadT4 v ∧ compactU2 (part1by1 v) = spreadT3 v ∧
    compactU3 (part1by1 v) = spreadT2 v ∧ compactU4 (part1by1 v) = spreadT1 v ∧ compactU5 (part1by1 v) = spreadT0 v

/-- No spread shift moves a set bit past bit 63, and bit 63 of `part1by1` is 0, so ENCODE's shift of `ey` loses nothing
either. -/
def Obligations.SpreadShiftsLoseNoBit : Prop :=
  ∀ v : Coord,
    (spreadT0 v <<< 16) >>> 16 = spreadT0 v ∧ (spreadT1 v <<< 8) >>> 8 = spreadT1 v ∧
    (spreadT2 v <<< 4) >>> 4 = spreadT2 v ∧ (spreadT3 v <<< 2) >>> 2 = spreadT3 v ∧
    (spreadT4 v <<< 1) >>> 1 = spreadT4 v ∧ (part1by1 v).getLsbD 63 = false ∧ spreadOdd v >>> 1 = part1by1 v

/-- XOR and OR agree in every spread stage and in every compact stage. -/
def Obligations.XorAndOrAgreeInEveryStage : Prop :=
  (∀ v : Coord,
    spreadT1 v = (spreadT0 v ||| (spreadT0 v <<< 16)) &&& mask16 ∧ spreadT2 v = (spreadT1 v ||| (spreadT1 v <<< 8)) &&& mask8 ∧
    spreadT3 v = (spreadT2 v ||| (spreadT2 v <<< 4)) &&& mask4 ∧ spreadT4 v = (spreadT3 v ||| (spreadT3 v <<< 2)) &&& mask2 ∧
    spreadT5 v = (spreadT4 v ||| (spreadT4 v <<< 1)) &&& mask1) ∧
  ∀ k : Key,
    compactU1 k = (compactU0 k ||| (compactU0 k >>> 1)) &&& mask2 ∧ compactU2 k = (compactU1 k ||| (compactU1 k >>> 2)) &&& mask4 ∧
    compactU3 k = (compactU2 k ||| (compactU2 k >>> 4)) &&& mask8 ∧ compactU4 k = (compactU3 k ||| (compactU3 k >>> 8)) &&& mask16 ∧
    compactU5 k = (compactU4 k ||| (compactU4 k >>> 16)) &&& mask32

/-- The compactor undoes the spreader, and the spreader after the compactor keeps exactly the even bits. -/
def Obligations.SpreaderAndCompactorAreInverse : Prop :=
  (∀ v : Coord, compact1by1 (part1by1 v) = v) ∧ ∀ k : Key, part1by1 (compact1by1 k) = k &&& 0x5555555555555555#64

/-! ## Laws of ENCODE and DECODE (spec's derivations in 41_encode_decode.md) -/

/-- ENCODE's two operands have no set bit in common, the addition carries at no position and out of none, and OR and XOR
would give the same key. -/
def Obligations.EncodeAdditionNeverCarries : Prop :=
  ∀ x y : Coord,
    spreadOdd y &&& spreadEven x = 0#64 ∧ (∀ q, q ≤ 64 → encodeCarry q x y = false) ∧
    interleave x y = spreadOdd y ||| spreadEven x ∧ interleave x y = spreadOdd y ^^^ spreadEven x

/-- Bit isolation: a single bit `k` of `x` gives the key `1 << 2k`, one of `y` the key `1 << (2k+1)`, from every state. -/
def Obligations.BitIsolation : Prop :=
  ∀ (s : State) (k : Nat), k < 32 →
    exec (.encode (1#32 <<< k) 0#32) s = .next { s with dout := 1#64 <<< (2 * k) } ∧
    exec (.encode 0#32 (1#32 <<< k)) s = .next { s with dout := 1#64 <<< (2 * k + 1) }

/-- Separability, and the key of a pair of equal coordinates: three times the spread coordinate. -/
def Obligations.EncodeIsSeparable : Prop :=
  (∀ x y : Coord, interleave x y = interleave x 0#32 ||| interleave 0#32 y) ∧
  ∀ x : Coord, interleave x x = part1by1 x * 3#64

/-- ENCODE is strictly monotone in each coordinate, as unsigned numbers. -/
def Obligations.EncodeIsMonotoneInEachCoordinate : Prop :=
  (∀ x1 x2 y : Coord, x1.toNat < x2.toNat → (interleave x1 y).toNat < (interleave x2 y).toNat) ∧
  ∀ x y1 y2 : Coord, y1.toNat < y2.toNat → (interleave x y1).toNat < (interleave x y2).toNat

/-- Quad-tree parent and quadrant: halving both coordinates drops the last two bits of the key, which are `y[0]` and
`x[0]`. -/
def Obligations.QuadTreeParentAndQuadrant : Prop :=
  ∀ x y : Coord,
    interleave (x >>> 1) (y >>> 1) = interleave x y >>> 2 ∧
    interleave x y &&& 3#64 = (((y.extractLsb' 0 1).setWidth 64 <<< 1) ||| (x.extractLsb' 0 1).setWidth 64)

/-- Every 64-bit value is the key of exactly one pair: no key is invalid. -/
def Obligations.EveryKeyHasExactlyOnePair : Prop :=
  ∀ key : Key, ∃ p : Coord × Coord, interleave p.1 p.2 = key ∧ ∀ p' : Coord × Coord, interleave p'.1 p'.2 = key → p' = p

/-- On the machine: a command and then the other one on the result the integrator sampled gives the first operand word
back, whichever comes first, from every state and for every operand word. That the second command takes `din` from the register
that sampled `dout` is the model's choice, log entry 8. -/
def Obligations.OtherOperationOnSampledResultGivesOperandBack : Prop :=
  ∀ (s : State) (d : Key),
    trace 2 { s with pending := [Presentation.ofWord (command 0#1 d), ⟨.bits 1#1, .sampledDout⟩] } = [encodeDin d, d] ∧
    trace 2 { s with pending := [Presentation.ofWord (command 1#1 d), ⟨.bits 0#1, .sampledDout⟩] } = [decodeDin d, d]

/-! ## The step -/

/-- A step presents the next command (or holds the inputs when there is none), and runs the decoded command there; the
command that `withFetchWord` places is the one the next step runs. Model's choice, log entry 2: the list of commands to
present, holding the inputs when it is empty, and `withFetchWord` replacing the next presentation. -/
def Obligations.StepRunsTheDecodedCommand : Prop :=
  (∀ (s : State) (p : Presentation) (rest : List Presentation) (w : CommandWord),
    s.pending = p :: rest → (p.resolve s.dout).word = .ok w →
    step s = exec (decodeWord w) { s with inputs := p.resolve s.dout, pending := rest }) ∧
  (∀ (s : State) (w : CommandWord), s.pending = [] → s.inputs.word = .ok w → step s = exec (decodeWord w) s) ∧
  ∀ (s : State) (nbits n : Nat) (i : Instr), decodeTableWord nbits n = some i →
    step (s.withFetchWord nbits n) =
      exec i { s with inputs := wordInputs (BitVec.ofNat 65 (tableNumber nbits n)), pending := s.pending.tail }

/-- The invariant every step keeps: wherever the ports carry a command `dout` is its result, and the integrator still has
only driven commands to present. -/
def Obligations.StepKeepsInvariant : Prop :=
  ∀ s t : State, s.Inv → step s = .next t → t.Inv

/-- The invariant holds after power-up, where the ports carry no command yet; with a program of at least one command that
state is safe (model's choice of the reset ports, log entry 3). That a safe state goes on is SafeRunNeverStops, and the whole
run of a program, from this state as from every other, is ProgramResultsAreItsCommandsResults. -/
def Obligations.ResetMeetsInvariantAndIsSafeWithAProgram : Prop :=
  State.reset.Inv ∧
  ∀ (w : CommandWord) (ws : List CommandWord), (State.reset.withProgram (w :: ws)).safe = true

/-- As long as the integrator presents only driven commands, the machine never stops, stays safe and is settled after every
step. -/
def Obligations.SafeRunNeverStops : Prop :=
  ∀ s : State, s.safe = true → ∃ t : State, step s = .next t ∧ t.safe = true ∧ t.Settled

/-- R16: `dout` is `F(op, din)` of the current inputs alone. Two machines in any two states, with any commands to come,
that are presented the same `(op, din)` show the same `dout`; over time it does so once the inputs have been stable for
`T_PD`, whatever came before (model's choice in the second clause, log entry 5: times as natural numbers, and `dout`
before it has settled as a function of time). -/
def Obligations.DoutDependsOnCurrentInputsOnly : Prop :=
  (∀ (s s' : State) (rest rest' : List Presentation) (op : BitVec 1) (din : Key), ∃ t t' : State,
    step { s with pending := ⟨.bits op, .port (.bits din)⟩ :: rest } = .next t ∧
    step { s' with pending := ⟨.bits op, .port (.bits din)⟩ :: rest' } = .next t' ∧
    t.dout = t'.dout ∧ t.dout = if op = 0#1 then encodeDin din else decodeDin din) ∧
  ∀ (cfg : Config) (u : Nat → Key) (powerGood time : Nat) (w : List InputEvent) (st : StableInputs) (op : BitVec 1)
    (din : Key),
    stableInputs (eventsUpTo w time) = some st → st.inputs = ⟨.bits op, .bits din⟩ →
    max powerGood st.since + cfg.tPD ≤ time →
    doutAt cfg u powerGood w time = if op = 0#1 then encodeDin din else decodeDin din

/-- R24: repeating a command, after any commands in between, gives the same result. -/
def Obligations.RepeatedCommandGivesSameResult : Prop :=
  ∀ (s : State) (w : CommandWord) (between : List CommandWord),
    (trace (between.length + 2) (s.withProgram (w :: between ++ [w]))).length = between.length + 2 ∧
    (trace (between.length + 2) (s.withProgram (w :: between ++ [w]))).head? = some (blockWord w) ∧
    (trace (between.length + 2) (s.withProgram (w :: between ++ [w]))).getLast? = some (blockWord w)

/-- A program's end state is the list of its commands' results, from every state, and it leaves nothing behind but the
last one on the ports. -/
def Obligations.ProgramResultsAreItsCommandsResults : Prop :=
  ∀ (ws : List CommandWord) (s : State),
    trace ws.length (s.withProgram ws) = ws.map blockWord ∧
    ∃ t : State, Host.Core.run core ws.length (s.withProgram ws) = .next t ∧ t.pending = [] ∧
      t.inputs = (ws.getLast?.map wordInputs).getD s.inputs

/-- Reordering a list of commands reorders its results alike: the pairs of command and result are the same ones (spec's
derivation, ordering model of 20_memory.md). -/
def Obligations.ReorderedProgramHasReorderedResults : Prop :=
  ∀ (ws ws' : List CommandWord) (s s' : State), ws.Perm ws' →
    (ws.zip (trace ws.length (s.withProgram ws))).Perm (ws'.zip (trace ws'.length (s'.withProgram ws')))

/-- A command held on the ports, or presented again, gives the same state again (idempotence, 20_memory.md). -/
def Obligations.HeldCommandIsIdempotent : Prop :=
  ∀ s t : State, s.pending = [] → step s = .next t → step t = .next t

/-! ## Exceptions and refusals -/

/-- R69: every command runs from every state to its next `dout`, a value that depends on the command alone (so no result is
undefined); a step whose inputs are 2-state values does too; no step faults, and there is no cause to fault with. -/
def Obligations.NoCommandRaisesAnException : Prop :=
  IsEmpty Fault ∧
  (∀ i : Instr, ∃ v : Key, ∀ s : State, exec i s = .next { s with dout := v }) ∧
  (∀ s : State, (present s).inputs.driven = true → ∃ t : State, step s = .next t) ∧
  ∀ (s : State) (f : Fault), step s ≠ .fault f

/-- R86: an input wired to `dout` with no register is refused, and the registered way is not: a command runs on the
sampled value. Model's choices: `op`'s cause is the one named where `din` is to be refused too (log entry 6), feedback is
declared by what drives the port (log entry 7), and `din` comes from the register that sampled `dout` (log entry 8). -/
def Obligations.CombinationalLoopIsRefused : Prop :=
  (∀ (s : State) (d : DinSource) (rest : List Presentation),
    step { s with pending := ⟨.feedback, d⟩ :: rest } = .refused .combinationalLoop) ∧
  (∀ (s : State) (op : BitVec 1) (rest : List Presentation),
    step { s with pending := ⟨.bits op, .port .feedback⟩ :: rest } = .refused .combinationalLoop) ∧
  ∀ (s : State) (op : BitVec 1) (rest : List Presentation),
    step { s with pending := ⟨.bits op, .sampledDout⟩ :: rest } =
      .next { inputs := ⟨.bits op, .bits s.dout⟩, dout := blockF op s.dout, pending := rest }

/-- An input that is not driven with 2-state values is refused (92_eei_decisions.md D14); so is a step after power-up with
nothing presented. Model's choices: `op`'s cause is the one named where `din` is to be refused too (log entry 6), and the
ports at reset (log entry 3). -/
def Obligations.UndrivenInputIsRefused : Prop :=
  (∀ (s : State) (d : DinSource) (rest : List Presentation),
    step { s with pending := ⟨.undriven, d⟩ :: rest } = .refused .undrivenInput) ∧
  (∀ (s : State) (op : BitVec 1) (rest : List Presentation),
    step { s with pending := ⟨.bits op, .port .undriven⟩ :: rest } = .refused .undrivenInput) ∧
  step State.reset = .refused .undrivenInput

/-! ## Settling -/

/-- R82: until the inputs have held 2-state values for `T_PD` after power is good `dout` can be any value, from then on it
is `F(op, din)`, and the first command after power-up behaves like every later one. Model's choice in the first two
clauses, log entry 5: times as natural numbers, and `dout` before it has settled as a function of time. -/
def Obligations.PowerUpThenSettled : Prop :=
  (∀ (cfg : Config) (powerGood time : Nat) (w : List InputEvent),
    (∀ st cmd, stableInputs (eventsUpTo w time) = some st → st.inputs.word = .ok cmd →
      time < max powerGood st.since + cfg.tPD) →
    ∀ v : Key, ∃ u : Nat → Key, doutAt cfg u powerGood w time = v) ∧
  (∀ (cfg : Config) (u : Nat → Key) (powerGood time : Nat) (w : List InputEvent) (st : StableInputs) (cmd : CommandWord),
    stableInputs (eventsUpTo w time) = some st → st.inputs.word = .ok cmd → max powerGood st.since + cfg.tPD ≤ time →
    doutAt cfg u powerGood w time = blockF cmd.op cmd.din) ∧
  ∀ (w : CommandWord) (s : State), ∃ t t' : State, step (State.reset.withProgram [w]) = .next t ∧
    step (s.withProgram [w]) = .next t' ∧ t.dout = t'.dout ∧ t.inputs = t'.inputs

/-- An integrator that keeps the settling rule samples exactly the results of the untimed machine, whatever `dout` does
before it settles and whatever `T_PD` is (settling hazard of 70_reset_and_hazards.md). Model's choices: times as natural
numbers (log entry 5), and an input presented at the very instant of a sample comes after it (log entry 14). -/
def Obligations.SettledSamplesAreTheMachinesResults : Prop :=
  ∀ (cfg : Config) (u : Nat → Key) (powerGood : Nat) (slots : List Slot) (s : State),
    keepsSettling cfg powerGood slots = true →
    scheduleSamples cfg u powerGood slots = trace slots.length (s.withProgram (slots.map (fun a => a.word)))

/-- The settling rule counts from the last input change: after a schedule that keeps it, the last command presented again may
be sampled with no further wait, at the last sample or later; a command that differs from the one before is presented no
earlier than that one's sample and waits `T_PD` from its own presentation (settling hazard of 70_reset_and_hazards.md).
Model's choices: times as natural numbers, and presenting again what is on the ports as no change (log entry 5); presenting
at the very instant of a sample is allowed (log entry 14). -/
def Obligations.SettlingCountsFromLastInputChange : Prop :=
  (∀ (cfg : Config) (powerGood : Nat) (slots : List Slot) (a : Slot) (present sample : Nat),
    keepsSettling cfg powerGood (slots ++ [a]) = true → a.present ≤ present → present ≤ sample → a.sample ≤ sample →
    keepsSettling cfg powerGood (slots ++ [a, ⟨a.word, present, sample⟩]) = true) ∧
  ∀ (cfg : Config) (powerGood : Nat) (slots : List Slot) (a b : Slot),
    keepsSettling cfg powerGood (slots ++ [a, b]) = true → b.word ≠ a.word →
    a.sample ≤ b.present ∧ max powerGood b.present + cfg.tPD ≤ b.sample

/-- The synchronous case: a clock period that leaves `T_PD` after clock-to-output and setup keeps the settling rule, from any
edge on at whose presentation power is good. Both times may be zero. Model's choices: times as natural numbers (log entry 5),
and presenting at the very instant of a sample is allowed (log entry 14). -/
def Obligations.LongEnoughClockKeepsSettling : Prop :=
  ∀ (cfg : Config) (powerGood period clockToOut setup edge : Nat) (ws : List CommandWord),
    powerGood ≤ edge * period + clockToOut → cfg.tPD + clockToOut + setup ≤ period →
    keepsSettling cfg powerGood (clockedSlots period clockToOut setup edge ws) = true

/-! ## What the integrator and the assembler do -/

/-- A key stored in byte memory and read back under one `KEY_BYTE_ORDER` is the key, for every order of the eight bytes
(byte order of 20_memory.md; model's choice of the parameter's values, log entry 12). -/
def Obligations.StoredKeyReadsBack : Prop :=
  ∀ (cfg : Config) (k : Key), cfg.wellFormed = true → (storeKey cfg k).length = 8 ∧ loadKey cfg (storeKey cfg k) = k

/-- A numeral that does not fit its field is refused, and every other textual command maps to the one word of its format,
nothing truncated (assembler syntax of 30_encoding.md). -/
def Obligations.AssemblerRefusesWideNumerals : Prop :=
  (∀ x y : Nat, x < 2 ^ 32 → y < 2 ^ 32 →
    ∃ i, assemble (.encode x y) = .ok i ∧ (encodeWord i).toNat = y * 2 ^ 32 + x) ∧
  (∀ key : Nat, key < 2 ^ 64 → ∃ i, assemble (.decode key) = .ok i ∧ (encodeWord i).toNat = 2 ^ 64 + key) ∧
  (∀ x y : Nat, 2 ^ 32 ≤ x ∨ 2 ^ 32 ≤ y → assemble (.encode x y) = .error .numeralTooWide) ∧
  ∀ key : Nat, 2 ^ 64 ≤ key → assemble (.decode key) = .error .numeralTooWide

/-- Every command and every command word can be written as text in the syntax of 30_encoding.md, and the text is read back
as that command or word. -/
def Obligations.TextReadsBack : Prop :=
  (∀ i : Instr, assembleText (commandText i) = .ok i) ∧ ∀ w : CommandWord, parseWord (wordText w) = .ok w
end

