-- ==== Sys2Proof/Laws/Assembler.lean ====
section
/-! SUPPORT. What the assembler's readers do on the digits its writers produce (R41). -/

namespace Sys2Proof.Machine

/-- A written digit is read back, and is none of the separators. -/
theorem hexDigit_reads_back {d : Nat} (h : d < 16) :
    digitValue 16 (hexDigit d) = some d ∧ hexDigit d ≠ '_' ∧ hexDigit d ≠ ',' ∧ isBlank (hexDigit d) = false := by
  interval_cases d <;> decide

/-- Written digits hold no blank and no comma. -/
theorem hexDigits_plain {n v : Nat} {c : Char} (h : c ∈ hexDigits n v) : isBlank c = false ∧ c ≠ ',' := by
  induction n generalizing v with
  | zero => cases h
  | succ n ih =>
    rw [hexDigits, List.mem_append] at h
    rcases h with h | h
    · exact ih h
    · rw [List.mem_singleton] at h
      subst h
      obtain ⟨-, -, hc, hb⟩ := hexDigit_reads_back (show v % 16 < 16 by omega)
      exact ⟨hb, hc⟩

/-- The value of `n` written digits in front of a text. -/
theorem digitsValue_hexDigits {n v acc : Nat} {rest : List Char} {afterDigit : Bool} (hn : 0 < n) (hv : v < 16 ^ n) :
    digitsValue 16 afterDigit acc (hexDigits n v ++ rest) = digitsValue 16 true (acc * 16 ^ n + v) rest := by
  have digit : ∀ (d a : Nat) (after : Bool) (t : List Char), d < 16 →
      digitsValue 16 after a (hexDigit d :: t) = digitsValue 16 true (a * 16 + d) t := by
    intro d a after t hd
    obtain ⟨hval, hsep, -, -⟩ := hexDigit_reads_back hd
    rw [digitsValue, if_neg hsep, hval]
  induction n generalizing v acc rest afterDigit with
  | zero => omega
  | succ n ih =>
    rw [hexDigits, List.append_assoc, List.singleton_append]
    rcases Nat.eq_zero_or_pos n with rfl | hpos
    · rw [hexDigits, List.nil_append, digit _ _ _ _ (by omega)]
      congr 1
      simp at hv ⊢
      omega
    · rw [ih hpos (by rw [Nat.pow_succ] at hv; omega), digit _ _ _ _ (by omega)]
      congr 1
      rw [Nat.pow_succ, Nat.add_mul, Nat.mul_assoc]
      omega

theorem splitAtCommas_plain {t : List Char} (h : ∀ c ∈ t, c ≠ ',') : splitAtCommas t = [t] := by
  induction t with
  | nil => rfl
  | cons c t ih => rw [splitAtCommas, if_neg (h c (by simp)), ih (fun d hd => h d (by simp [hd]))]

theorem splitAtCommas_append {t u : List Char} (h : ∀ c ∈ t, c ≠ ',') :
    splitAtCommas (t ++ ',' :: u) = t :: splitAtCommas u := by
  induction t with
  | nil => simp [splitAtCommas]
  | cons c t ih => rw [List.cons_append, splitAtCommas, if_neg (h c (by simp)), ih (fun d hd => h d (by simp [hd]))]

end Sys2Proof.Machine
end

