-- ==== Sys2Proof/Laws/State.lean ====
section
/-! SUPPORT. The fields of a state after each update, and what the input ports carry. -/

namespace Sys2Proof.Machine

@[simp] theorem State.withDout_inputs (s : State) (v : Key) : (s.withDout v).inputs = s.inputs := rfl
@[simp] theorem State.withDout_dout (s : State) (v : Key) : (s.withDout v).dout = v := rfl
@[simp] theorem State.withDout_pending (s : State) (v : Key) : (s.withDout v).pending = s.pending := rfl

@[simp] theorem State.withInputs_inputs (s : State) (i : Inputs) (rest : List Presentation) :
    (s.withInputs i rest).inputs = i := rfl
@[simp] theorem State.withInputs_dout (s : State) (i : Inputs) (rest : List Presentation) :
    (s.withInputs i rest).dout = s.dout := rfl
@[simp] theorem State.withInputs_pending (s : State) (i : Inputs) (rest : List Presentation) :
    (s.withInputs i rest).pending = rest := rfl

@[simp] theorem State.withProgram_inputs (s : State) (ws : List CommandWord) :
    (s.withProgram ws).inputs = s.inputs := rfl
@[simp] theorem State.withProgram_dout (s : State) (ws : List CommandWord) : (s.withProgram ws).dout = s.dout := rfl
@[simp] theorem State.withProgram_pending (s : State) (ws : List CommandWord) :
    (s.withProgram ws).pending = ws.map Presentation.ofWord := rfl

/-! ## The value on a port -/

@[simp] theorem Drive.value_bits {n : Nat} (v : BitVec n) : (Drive.bits v).value = .ok v := rfl
@[simp] theorem Drive.value_undriven {n : Nat} : (Drive.undriven : Drive n).value = .error .undrivenInput := rfl
@[simp] theorem Drive.value_feedback {n : Nat} : (Drive.feedback : Drive n).value = .error .combinationalLoop := rfl

@[simp] theorem Inputs.word_bits (op : BitVec 1) (din : Key) :
    (Inputs.mk (.bits op) (.bits din)).word = .ok (command op din) := rfl

/-- The ports carry a command word exactly when both are driven with its two parts. -/
theorem Inputs.word_eq_ok {i : Inputs} {w : CommandWord} :
    i.word = .ok w ↔ ∃ op din, i = ⟨.bits op, .bits din⟩ ∧ w = command op din := by
  obtain ⟨op, din⟩ := i
  cases op <;> cases din <;> simp [Inputs.word, Drive.value, eq_comm]

/-! ## What a presentation puts on the ports -/

@[simp] theorem Presentation.resolve_port (op : Drive 1) (d : Drive 64) (sample : Key) :
    (Presentation.mk op (.port d)).resolve sample = ⟨op, d⟩ := rfl
@[simp] theorem Presentation.resolve_sampledDout (op : Drive 1) (sample : Key) :
    (Presentation.mk op .sampledDout).resolve sample = ⟨op, .bits sample⟩ := rfl
@[simp] theorem Presentation.resolve_ofWord (w : CommandWord) (sample : Key) :
    (Presentation.ofWord w).resolve sample = ⟨.bits w.op, .bits w.din⟩ := rfl

/-- A command word is its operation bit and its operand word. -/
@[simp] theorem command_parts (w : CommandWord) : command w.op w.din = w := by
  apply BitVec.eq_of_getLsbD_eq
  intro i hi
  simp only [command, BitVec.getLsbD_append, BitVec.getLsbD_extractLsb']
  split
  · simp_all
  · have h : i = 64 := by omega
    subst h
    simp

@[simp] theorem command_op (op : BitVec 1) (din : Key) : CommandWord.op (command op din) = op := by
  apply BitVec.eq_of_getLsbD_eq
  intro i hi
  have h : i = 0 := by omega
  subst h
  simp only [command, CommandWord.op, BitVec.getLsbD_extractLsb', BitVec.getLsbD_append]
  simp

@[simp] theorem command_din (op : BitVec 1) (din : Key) : CommandWord.din (command op din) = din := by
  apply BitVec.eq_of_getLsbD_eq
  intro i hi
  simp only [command, CommandWord.din, BitVec.getLsbD_extractLsb', BitVec.getLsbD_append]
  simp [hi]

@[simp] theorem Inputs.word_parts (w : CommandWord) : (Inputs.mk (.bits w.op) (.bits w.din)).word = .ok w := by
  rw [Inputs.word_bits, command_parts]

theorem present_nil {s : State} (h : s.pending = []) : present s = s := by
  simp [present, h]

theorem present_cons {s : State} {p : Presentation} {rest : List Presentation} (h : s.pending = p :: rest) :
    present s = s.withInputs (p.resolve s.dout) rest := by
  simp [present, h]

end Sys2Proof.Machine
end

