-- ==== Sys2Proof/Laws/Ops.lean ====
section
/-! SUPPORT. What each shared operation of the datapath does, bit by bit. -/

namespace Sys2Proof.Machine

/-- Bit `q` of a spread stage. -/
theorem spreadRound_getLsbD (s : Nat) (mask t : Key) {q : Nat} (hq : q < 64) :
    (spreadRound s mask t).getLsbD q =
      ((t.getLsbD q ^^ (decide (s ≤ q) && t.getLsbD (q - s))) && mask.getLsbD q) := by
  simp only [spreadRound, BitVec.getLsbD_and, BitVec.getLsbD_xor, BitVec.getLsbD_shiftLeft]
  by_cases h : q < s
  · simp [hq, h, Nat.not_le.2 h]
  · simp only [hq, h, Nat.not_lt.1 h, decide_true, decide_false, Bool.not_false, Bool.true_and]

/-- Bit `q` of a compact stage. -/
theorem compactRound_getLsbD (s : Nat) (mask u : Key) (q : Nat) :
    (compactRound s mask u).getLsbD q = ((u.getLsbD q ^^ u.getLsbD (s + q)) && mask.getLsbD q) := by
  simp [compactRound]

/-- Bit `q` of `part1by1(y) << 1`. -/
theorem spreadOdd_getLsbD (y : Coord) {q : Nat} (hq : q < 64) :
    (spreadOdd y).getLsbD q = (decide (1 ≤ q) && (part1by1 y).getLsbD (q - 1)) := by
  cases q with
  | zero => simp [spreadOdd]
  | succ q => simp [spreadOdd, hq, BitVec.getLsbD_eq_getElem (show q < 64 by omega)]

theorem packPair_getLsbD (x y : Coord) (q : Nat) :
    (packPair x y).getLsbD q = if q < 32 then x.getLsbD q else y.getLsbD (q - 32) := by
  simp only [packPair, BitVec.getLsbD_append]

/-- The low half of a packed pair is `x` (R36). -/
@[simp] theorem packPair_low (x y : Coord) : (packPair x y).extractLsb' 0 32 = x := by
  apply BitVec.eq_of_getLsbD_eq
  intro i hi
  simp [packPair_getLsbD, hi]

/-- The high half of a packed pair is `y` (R36). -/
@[simp] theorem packPair_high (x y : Coord) : (packPair x y).extractLsb' 32 32 = y := by
  apply BitVec.eq_of_getLsbD_eq
  intro i hi
  simp [packPair_getLsbD, hi]

/-- An operand word is its two halves. -/
@[simp] theorem packPair_halves (d : Key) : packPair (d.extractLsb' 0 32) (d.extractLsb' 32 32) = d := by
  apply BitVec.eq_of_getLsbD_eq
  intro i hi
  simp only [packPair_getLsbD, BitVec.getLsbD_extractLsb']
  split
  · simp_all
  · have : i - 32 < 32 := by omega
    simp [this, show 32 + (i - 32) = i by omega]

/-- ENCODE's operand word in the packed form of R36. -/
theorem encodeDin_packPair (x y : Coord) : encodeDin (packPair x y) = interleave x y := by
  simp [encodeDin]

/-- Two words that agree on every bit pair are equal. -/
theorem key_ext {a b : Key} (h0 : ∀ i, i < 32 → a.getLsbD (2 * i) = b.getLsbD (2 * i))
    (h1 : ∀ i, i < 32 → a.getLsbD (2 * i + 1) = b.getLsbD (2 * i + 1)) : a = b := by
  apply BitVec.eq_of_getLsbD_eq
  intro q hq
  rcases Nat.even_or_odd' q with ⟨i, rfl | rfl⟩
  · exact h0 i (by omega)
  · exact h1 i (by omega)

end Sys2Proof.Machine
end

