-- ==== Sys2Proof/Laws/PerInstr.lean ====
section
/-! SUPPORT. Per-command lemmas: the word of each command is a word of its row of the opcode table (R37). -/

namespace Sys2Proof.Laws.TableRow

/-- Some row of the opcode table has the command's mnemonic and admits its word. -/
def Statement (i : Instr) : Prop := ∃ r ∈ opcodeTable, r.mnemonic = i.mnemonic ∧ r.admits (encodeWord i) = true

theorem encode (x y : Coord) : Statement (.encode x y) := by
  refine ⟨⟨.ENCODE, 0x00000000000000000#65, 0x10000000000000000#65⟩, by simp [opcodeTable], rfl, ?_⟩
  simp only [OpcodeRow.admits, encodeWord, beq_iff_eq]
  apply BitVec.eq_of_getLsbD_eq
  intro q hq
  have hm : (0x10000000000000000#65).getLsbD q = decide (q = 64) := by
    revert q; decide
  simp only [BitVec.getLsbD_and, BitVec.getLsbD_append, hm]
  by_cases h : q = 64 <;> simp [h]

theorem decode (key : Key) : Statement (.decode key) := by
  refine ⟨⟨.DECODE, 0x10000000000000000#65, 0x10000000000000000#65⟩, by simp [opcodeTable], rfl, ?_⟩
  simp only [OpcodeRow.admits, encodeWord, beq_iff_eq]
  apply BitVec.eq_of_getLsbD_eq
  intro q hq
  have hm : (0x10000000000000000#65).getLsbD q = decide (q = 64) := by
    revert q; decide
  simp only [BitVec.getLsbD_and, BitVec.getLsbD_append, hm]
  by_cases h : q = 64 <;> simp [h]

end Sys2Proof.Laws.TableRow
end

