-- ==== Sys2Proof/Laws/Settling.lean ====
section
/-! SUPPORT. What the stable inputs of a waveform are, and when a schedule keeps the settling rule (R84). -/

namespace Sys2Proof.Machine

@[simp] theorem wordInputs_word (w : CommandWord) : (wordInputs w).word = .ok w := Inputs.word_parts w

/-- Inputs are stable since the time of one of the events. -/
theorem stableInputs_since {w : List InputEvent} {st : StableInputs} (h : stableInputs w = some st) :
    ∃ e ∈ w, st.since = e.time := by
  induction w generalizing st with
  | nil => cases h
  | cons a w ih =>
    rw [stableInputs] at h
    split at h
    · rename_i st' hst
      split at h
      · cases h
        obtain ⟨e, he, ht⟩ := ih hst
        exact ⟨e, List.mem_cons_of_mem _ he, ht⟩
      · cases h
        exact ⟨a, List.mem_cons_self, rfl⟩
    · cases h
      exact ⟨a, List.mem_cons_self, rfl⟩

/-- The stable inputs are those of the newest event. -/
theorem stableInputs_inputs {e : InputEvent} {w : List InputEvent} {st : StableInputs}
    (h : stableInputs (e :: w) = some st) : st.inputs = e.inputs := by
  rw [stableInputs] at h
  split at h
  · split at h <;> cases h
    · assumption
    · rfl
  · cases h
    rfl

/-- A waveform with an event has stable inputs. -/
theorem stableInputs_cons (e : InputEvent) (w : List InputEvent) : ∃ st, stableInputs (e :: w) = some st := by
  rw [stableInputs]
  split
  · split <;> exact ⟨_, rfl⟩
  · exact ⟨_, rfl⟩

/-- A command word is what its 2-state inputs carry. -/
@[simp] theorem wordInputs_inj {w w' : CommandWord} : wordInputs w = wordInputs w' ↔ w = w' := by
  constructor
  · intro h
    have hw := congrArg Inputs.word h
    rw [wordInputs_word, wordInputs_word] at hw
    exact Except.ok.inj hw
  · rintro rfl
    rfl

/-- Driving the ports with what they carry already changes nothing. -/
theorem stableInputs_repeat {e : InputEvent} {w : List InputEvent} {st : StableInputs} (h : stableInputs w = some st)
    (he : st.inputs = e.inputs) : stableInputs (e :: w) = some st := by
  simp [stableInputs, h, he]

/-- Driving them with something else is a change at that time. -/
theorem stableInputs_change {e : InputEvent} {w : List InputEvent} {st : StableInputs} (h : stableInputs w = some st)
    (he : st.inputs ≠ e.inputs) : stableInputs (e :: w) = some ⟨e.time, e.inputs⟩ := by
  simp [stableInputs, h, he]

theorem eventsUpTo_of_le {w : List InputEvent} {t : Nat} (h : ∀ e ∈ w, e.time ≤ t) : eventsUpTo w t = w := by
  rw [eventsUpTo, List.filter_eq_self]
  simpa using h

theorem mem_scheduleEvents {slots : List Slot} {e : InputEvent} :
    e ∈ scheduleEvents slots ↔ ∃ a ∈ slots, e = ⟨a.present, wordInputs a.word⟩ := by
  simp [scheduleEvents, eq_comm]

/-- Everything that keeping the rule says of one slot. -/
theorem slotKeepsSettling_iff {cfg : Config} {powerGood : Nat} {done : List Slot} {a : Slot} {later : List Slot} :
    slotKeepsSettling cfg powerGood done a later = true ↔
      ∃ st, stableInputs (eventsUpTo (eventsAtSample done a later) a.sample) = some st ∧
        st.inputs = wordInputs a.word ∧ st.since ≤ a.present ∧ a.present ≤ a.sample ∧
        max powerGood st.since + cfg.tPD ≤ a.sample := by
  unfold slotKeepsSettling
  cases stableInputs (eventsUpTo (eventsAtSample done a later) a.sample) <;> simp [and_assoc]

theorem keepsSettlingAfter_cons {cfg : Config} {powerGood : Nat} {done : List Slot} {a : Slot} {later : List Slot} :
    keepsSettlingAfter cfg powerGood done (a :: later) = true ↔
      slotKeepsSettling cfg powerGood done a later = true ∧ (∀ b ∈ later, a.present ≤ b.present) ∧
        keepsSettlingAfter cfg powerGood (done ++ [a]) later = true := by
  simp [keepsSettlingAfter, and_assoc]

/-- Where no later slot presents before the sample, it sees what was presented up to its own slot. -/
theorem eventsAtSample_of_later {done : List Slot} {a : Slot} {later : List Slot}
    (h : ∀ b ∈ later, a.sample ≤ b.present) :
    eventsAtSample done a later = ⟨a.present, wordInputs a.word⟩ :: scheduleEvents done := by
  have hnone : later.filter (fun b => decide (b.present < a.sample)) = [] := by
    rw [List.filter_eq_nil_iff]
    intro b hb
    simpa using h b hb
  simp [eventsAtSample, scheduleEvents, hnone]

/-- A slot that waits `T_PD` after its own presentation, and whose inputs no later slot replaces before its sample, keeps the
rule. -/
theorem slotKeepsSettling_of_separate {cfg : Config} {powerGood : Nat} {done : List Slot} {a : Slot} {later : List Slot}
    (hdone : ∀ b ∈ done, b.present ≤ a.present) (hlater : ∀ b ∈ later, a.sample ≤ b.present)
    (h : max powerGood a.present + cfg.tPD ≤ a.sample) : slotKeepsSettling cfg powerGood done a later = true := by
  have htime : ∀ e ∈ InputEvent.mk a.present (wordInputs a.word) :: scheduleEvents done, e.time ≤ a.present := by
    intro e he
    rcases List.mem_cons.1 he with rfl | he
    · exact le_rfl
    · obtain ⟨b, hb, rfl⟩ := mem_scheduleEvents.1 he
      exact hdone b hb
  rw [slotKeepsSettling_iff, eventsAtSample_of_later hlater,
    eventsUpTo_of_le (fun e he => (htime e he).trans (by omega))]
  obtain ⟨st, hst⟩ := stableInputs_cons ⟨a.present, wordInputs a.word⟩ (scheduleEvents done)
  obtain ⟨e, he, hsince⟩ := stableInputs_since hst
  have hle := htime e he
  exact ⟨st, hst, stableInputs_inputs hst, by omega, by omega, by omega⟩

end Sys2Proof.Machine
end

