-- ==== Sys2Proof/Laws/Step.lean ====
section
/-! SUPPORT. What the meanings and the step can do, said once. -/

namespace Sys2Proof.Machine

@[simp] theorem execEncode_eq (x y : Coord) (s : State) : execEncode x y s = .next (s.withDout (interleave x y)) := rfl

@[simp] theorem execDecode_eq (key : Key) (s : State) :
    execDecode key s = .next (s.withDout (packPair (evenBits key) (oddBits key))) := rfl

/-- A command only drives `dout`. -/
theorem exec_next (i : Instr) (s : State) : ∃ v, exec i s = .next (s.withDout v) := by
  cases i with
  | encode x y => exact ⟨_, rfl⟩
  | decode key => exact ⟨_, rfl⟩

theorem settle_of_word {s : State} {w : CommandWord} (h : s.inputs.word = .ok w) : settle s = exec (decodeWord w) s := by
  simp [settle, h]

theorem settle_of_refusal {s : State} {r : Refusal} (h : s.inputs.word = .error r) : settle s = .refused r := by
  simp [settle, h]

/-- All that a step which goes on can have done: it presented 2-state inputs and ran their command. -/
theorem step_cases {s t : State} (h : step s = .next t) :
    ∃ w, (present s).inputs.word = .ok w ∧ exec (decodeWord w) (present s) = .next t := by
  unfold step settle at h
  split at h
  · exact ⟨_, ‹_›, h⟩
  · cases h

/-- One step of a run of the host's machine. -/
theorem run_next (M : Host.Core) (n : Nat) {s t : M.State} (h : M.step s = .next t) : M.run (n + 1) s = M.run n t := by
  simp [Host.Core.run, h]

@[simp] theorem trace_zero (s : State) : trace 0 s = [] := rfl

theorem trace_next {s t : State} (n : Nat) (h : step s = .next t) : trace (n + 1) s = t.dout :: trace n t := by
  rw [trace, h]

/-- Driven ports carry a command word (R83). -/
theorem Inputs.word_of_driven {i : Inputs} (h : i.driven = true) : ∃ w, i.word = .ok w := by
  obtain ⟨op, din⟩ := i
  cases op <;> cases din <;> simp [Inputs.driven] at h
  exact ⟨_, rfl⟩

/-- A driven presentation drives the ports, whatever the integrator has sampled. -/
theorem Presentation.resolve_driven {p : Presentation} (h : p.driven = true) (sample : Key) :
    (p.resolve sample).driven = true := by
  obtain ⟨op, din⟩ := p
  cases op <;> rcases din with (_ | _ | _) | _ <;> simp [Presentation.driven] at h <;> rfl

end Sys2Proof.Machine
end

