-- ==== Sys2Proof/Tests/Slice0.lean ====
section
/-! SUPPORT. Tests on the spec's own vectors (95_test_vectors.md), and for each statement with hypotheses a witness that
meets them. -/

namespace Sys2Proof.Tests

open Sys2Proof Sys2Proof.Machine

/-- A small state: settled, with the program `ps`. -/
def start (ps : List Presentation) : State := ⟨⟨.undriven, .undriven⟩, 0#64, ps⟩

/-- `dout` after an outcome. -/
def doutOf : Host.Outcome State Fault Refusal → Option Key
  | .next t => some t.dout
  | .fault _ => none
  | .refused _ => none

/-! ## Well-formedness: the one check refuses each ill-formed term (R41) -/

theorem smoke_wide_x : (SourceCommand.encode 0x100000000 0).wellFormed = false := by decide
theorem smoke_wide_y : (SourceCommand.encode 0 0x100000000).wellFormed = false := by decide
theorem smoke_wide_key : (SourceCommand.decode 0x10000000000000000).wellFormed = false := by decide
theorem smoke_widest : (SourceCommand.encode 0xFFFFFFFF 0xFFFFFFFF).wellFormed = true ∧
    (SourceCommand.decode 0xFFFFFFFFFFFFFFFF).wellFormed = true := by decide

/-! ## Decoding, on words written out from R36 and R37 -/

/-- E-17 and D-10: `0:00456789_00123456` and `1:00002126_2D3A9196`. -/
theorem test_decode_known_words :
    decodeWord 0x00045678900123456#65 = .encode 0x00123456#32 0x00456789#32 ∧
    decodeWord 0x1000021262D3A9196#65 = .decode 0x000021262D3A9196#64 := by decide

/-- E-18: CMD-ENC bit by bit, `op = 0`, `y` of sixteen ones and sixteen zeros, `x` the other way round. -/
theorem test_decode_encode_bits :
    decodeWord 0b01111111111111111000000000000000000000000000000001111111111111111#65 =
      .encode 0x0000FFFF#32 0xFFFF0000#32 := by decide

/-- D-8: CMD-DEC bit by bit, `op = 1`, only `key[63]` set. -/
theorem test_decode_decode_bits :
    decodeWord 0b11000000000000000000000000000000000000000000000000000000000000000#65 =
      .decode 0x8000000000000000#64 := by decide

theorem test_encode_words :
    encodeWord (.encode 0x00123456#32 0x00456789#32) = 0x00045678900123456#65 ∧
    encodeWord (.decode 0x000021262D3A9196#64) = 0x1000021262D3A9196#65 := by decide

/-- The table's two rows with their free bits zero, in whole bytes and in the row's own width; no command is wider. -/
theorem test_table_words :
    decodeTableWord 72 0 = some (.encode 0#32 0#32) ∧ decodeTableWord 65 0x10000000000000000 = some (.decode 0#64) ∧
    decodeTableWord 72 0x20000000000000000 = none := by decide

/-! ## The datapath, on the tables of 95_test_vectors.md -/

/-- S-1 to S-14. -/
theorem test_part1by1_vectors :
    ([(0x00000000#32, 0x0000000000000000#64), (0x00000001#32, 0x0000000000000001#64),
      (0x00000002#32, 0x0000000000000004#64), (0x00000003#32, 0x0000000000000005#64),
      (0x80000000#32, 0x4000000000000000#64), (0xFFFFFFFF#32, 0x5555555555555555#64),
      (0x55555555#32, 0x1111111111111111#64), (0xAAAAAAAA#32, 0x4444444444444444#64),
      (0x0000FFFF#32, 0x0000000055555555#64), (0xFFFF0000#32, 0x5555555500000000#64),
      (0x00123456#32, 0x0000010405101114#64), (0x00456789#32, 0x0000101114154041#64),
      (0x12345678#32, 0x0104051011141540#64), (0xDEADBEEF#32, 0x5154445145545455#64)].all
        fun p => part1by1 p.1 == p.2) = true := by decide

/-- C-1 to C-13; C-8 is the one that needs the last mask or the truncation. -/
theorem test_compact1by1_vectors :
    ([(0x0000000000000000#64, 0x00000000#32), (0x0000000000000001#64, 0x00000001#32),
      (0x0000000000000002#64, 0x00000000#32), (0x0000000000000003#64, 0x00000001#32),
      (0x0000000000000004#64, 0x00000002#32), (0x5555555555555555#64, 0xFFFFFFFF#32),
      (0xAAAAAAAAAAAAAAAA#64, 0x00000000#32), (0xFFFFFFFFFFFFFFFF#64, 0xFFFFFFFF#32),
      (0x4000000000000000#64, 0x80000000#32), (0x8000000000000000#64, 0x00000000#32),
      (0x00000000FFFFFFFF#64, 0x0000FFFF#32), (0xFFFFFFFF00000000#64, 0xFFFF0000#32),
      (0x0123456789ABCDEF#64, 0x11BB11BB#32)].all fun p => compact1by1 p.1 == p.2) = true := by decide

/-- S-T1, and C-T1 in reverse. -/
theorem test_stage_traces :
    [spreadT0 0x00123456#32, spreadT1 0x00123456#32, spreadT2 0x00123456#32, spreadT3 0x00123456#32, spreadT4 0x00123456#32,
      spreadT5 0x00123456#32] =
    [0x0000000000123456#64, 0x0000001200003456#64, 0x0000001200340056#64, 0x0000010203040506#64, 0x0000010203101112#64,
      0x0000010405101114#64] ∧
    [compactU5 0x000021262D3A9196#64, compactU4 0x000021262D3A9196#64, compactU3 0x000021262D3A9196#64,
      compactU2 0x000021262D3A9196#64, compactU1 0x000021262D3A9196#64, compactU0 0x000021262D3A9196#64] =
    [0x0000000000123456#64, 0x0000001200003456#64, 0x0000001200340056#64, 0x0000010203040506#64, 0x0000010203101112#64,
      0x0000010405101114#64] := by decide

/-- E-1 to E-20, as operand words and keys. -/
theorem test_encode_vectors :
    ([(0x0000000000000000#64, 0x0000000000000000#64), (0x0000000000000001#64, 0x0000000000000001#64),
      (0x0000000100000000#64, 0x0000000000000002#64), (0x0000000100000001#64, 0x0000000000000003#64),
      (0x0000000000000002#64, 0x0000000000000004#64), (0x0000000200000000#64, 0x0000000000000008#64),
      (0x0000000300000003#64, 0x000000000000000F#64), (0x00000000FFFFFFFF#64, 0x5555555555555555#64),
      (0xFFFFFFFF00000000#64, 0xAAAAAAAAAAAAAAAA#64), (0xFFFFFFFFFFFFFFFF#64, 0xFFFFFFFFFFFFFFFF#64),
      (0x5555555555555555#64, 0x3333333333333333#64), (0xAAAAAAAAAAAAAAAA#64, 0xCCCCCCCCCCCCCCCC#64),
      (0xAAAAAAAA55555555#64, 0x9999999999999999#64), (0x55555555AAAAAAAA#64, 0x6666666666666666#64),
      (0x0000000080000000#64, 0x4000000000000000#64), (0x8000000000000000#64, 0x8000000000000000#64),
      (0x0045678900123456#64, 0x000021262D3A9196#64), (0xFFFF00000000FFFF#64, 0xAAAAAAAA55555555#64),
      (0x9ABCDEF012345678#64, 0x838C8FB0B3BCBF40#64), (0xCAFEBABEDEADBEEF#64, 0xF1DCEEF9CFDCDEFD#64)].all
        fun p => blockF 0#1 p.1 == p.2) = true := by decide

/-- D-1 to D-14, as keys and result words. -/
theorem test_decode_vectors :
    ([(0x0000000000000000#64, 0x0000000000000000#64), (0x0000000000000001#64, 0x0000000000000001#64),
      (0x0000000000000002#64, 0x0000000100000000#64), (0x0000000000000003#64, 0x0000000100000001#64),
      (0xFFFFFFFFFFFFFFFF#64, 0xFFFFFFFFFFFFFFFF#64), (0x5555555555555555#64, 0x00000000FFFFFFFF#64),
      (0xAAAAAAAAAAAAAAAA#64, 0xFFFFFFFF00000000#64), (0x8000000000000000#64, 0x8000000000000000#64),
      (0x4000000000000000#64, 0x0000000080000000#64), (0x000021262D3A9196#64, 0x0045678900123456#64),
      (0xDEADBEEFCAFEBABE#64, 0xBEFFBFFFE36B8E46#64), (0x0123456789ABCDEF#64, 0x0505AFAF11BB11BB#64),
      (0x00000000FFFFFFFF#64, 0x0000FFFF0000FFFF#64), (0xFFFFFFFF00000000#64, 0xFFFF0000FFFF0000#64)].all
        fun p => blockF 1#1 p.1 == p.2) = true := by decide

/-! ## One step -/

/-- E-20 from a fetched word. -/
theorem test_step_encode :
    doutOf (step ((start []).withFetchWord 72 0x0CAFEBABEDEADBEEF)) = some 0xF1DCEEF9CFDCDEFD#64 := by decide

/-- D-11 from a fetched word. -/
theorem test_step_decode :
    doutOf (step ((start []).withFetchWord 72 0x1DEADBEEFCAFEBABE)) = some 0xBEFFBFFFE36B8E46#64 := by decide

/-- P1, step 2: the integrator's register drives `din`. -/
theorem test_step_sampled :
    doutOf (step { start [⟨.bits 1#1, .sampledDout⟩] with dout := 0x000021262D3A9196#64 }) = some 0x0045678900123456#64 := by
  decide

/-- The first step after power-up runs the fetched word, whatever `dout` was (E-4). -/
theorem test_step_from_reset :
    doutOf (step (State.reset.withFetchWord 72 0x00000000100000001)) = some 0x0000000000000003#64 := by decide

/-! ## The assembler (R41) -/

theorem test_assemble_known :
    assembleText ['E','N','C','O','D','E',' ','0','x','0','0','1','2','3','4','5','6',',',' ','0','x','4','5','6','7','8','9'] =
      .ok (.encode 0x00123456#32 0x00456789#32) := by decide

/-- Case-insensitive mnemonic, a decimal numeral. -/
theorem test_assemble_lower_case_decimal :
    assembleText ['d','e','C','o','d','e',' ','4','2'] = .ok (.decode 42#64) := by decide

/-- `ENCODE 0x100000000, 0` is refused (95_test_vectors.md, negative cases). -/
theorem test_assemble_wide_refused :
    assembleText ['E','N','C','O','D','E',' ','0','x','1','0','0','0','0','0','0','0','0',',',' ','0'] =
      .error .numeralTooWide := by decide

theorem test_parse_word :
    parseWord ['0',':','0','0','4','5','6','7','8','9','_','0','0','1','2','3','4','5','6'] = .ok 0x00045678900123456#65 ∧
    wordText 0x00045678900123456#65 =
      ['0',':','0','0','4','5','6','7','8','9','_','0','0','1','2','3','4','5','6'] := by decide

theorem test_assemble_other_refusals :
    assembleText ['X'] = .error .unknownMnemonic ∧ assembleText ['D','E','C','O','D','E',' ','1',',','2'] = .error .operandCount ∧
    assembleText ['D','E','C','O','D','E',' ','_'] = .error .badNumeral := by decide

/-! ## Witnesses -/

theorem witness_OpcodeTableSelectsOperation :
    (0x00045678900123456#65).getLsbD 64 = (0x00000000000000001#65).getLsbD 64 ∧
    (0x10000000000000000#65).getLsbD 64 = (0x1FFFFFFFFFFFFFFFF#65).getLsbD 64 := by decide

/-- The widest command, the narrowest number that is none, and one that the table's whole bytes can hold. -/
theorem witness_OnlyWiderNumbersAreRejected :
    (0x1FFFFFFFFFFFFFFFF < 2 ^ 65 ∧ 0x1FFFFFFFFFFFFFFFF < 2 ^ 72) ∧ 2 ^ 65 ≤ 0x20000000000000000 ∧
    0x20000000000000000 < 2 ^ 72 := by decide

theorem witness_KeyLayoutOfBothOperations : (0 : Nat) < 32 ∧ 31 < 32 := by decide

theorem witness_EachOperandBitDrivesOneResultBit : (0 < 32 ∧ 31 < 32) ∧ 0 < 64 ∧ 63 < 64 := by decide

theorem witness_MaskLaw : (0 : Nat) < 64 ∧ 63 < 64 := by decide

theorem witness_SpreadClosedForm :
    0x5555555555555555#64 &&& 0xAAAAAAAAAAAAAAAA#64 = 0#64 ∧
    ∀ i, i < 32 → (0x5555555555555555#64).getLsbD (2 * i) = (0xFFFFFFFF#32).getLsbD i := by decide

theorem witness_CompactClosedForm :
    0xFFFFFFFFFFFFFFFF#64 &&& 0x5555555555555555#64 = 0x5555555555555555#64 &&& 0x5555555555555555#64 := by decide

/-- In the first stage's layout place 16 holds no bit, place 47 holds bit 31, and both are below 64. -/
theorem witness_SpreadStageInvariant :
    (∀ i, i < 32 → 16 ≠ stagePosition i 16) ∧ stagePosition 31 16 = 47 ∧
    (spreadT1 0xFFFFFFFF#32).getLsbD 47 = true := by decide

theorem witness_CompactStageInvariantAndMirror :
    (∀ i, i < 32 → 2 ≠ stagePosition i 2) ∧ stagePosition 31 2 = 61 ∧
    (compactU1 0xFFFFFFFFFFFFFFFF#64).getLsbD 61 = true := by decide

theorem witness_EncodeAdditionNeverCarries : (0 : Nat) ≤ 64 ∧ 64 ≤ 64 := by decide

theorem witness_BitIsolation : (0 : Nat) < 32 ∧ 31 < 32 := by decide

/-- The law checks (d) of 95_test_vectors.md. -/
theorem witness_EncodeIsMonotoneInEachCoordinate :
    (0x00123456#32).toNat < (0x00123457#32).toNat ∧ (0x00456789#32).toNat < (0x0045678A#32).toNat := by decide

theorem witness_EveryKeyHasExactlyOnePair : interleave 0x00123456#32 0x00456789#32 = 0x000021262D3A9196#64 := by decide

theorem witness_StepRunsTheDecodedCommand :
    ((start [⟨.bits 1#1, .sampledDout⟩]).pending = ⟨.bits 1#1, .sampledDout⟩ :: [] ∧
      ((Presentation.mk (.bits 1#1) .sampledDout).resolve 0#64).word = .ok 0x10000000000000000#65) ∧
    ({ start [] with inputs := ⟨.bits 0#1, .bits 5#64⟩ }.pending = [] ∧
      { start [] with inputs := ⟨.bits 0#1, .bits 5#64⟩ }.inputs.word = .ok 0x00000000000000005#65) ∧
    decodeTableWord 72 0x10000000000000000 = some (.decode 0#64) := by decide

theorem witness_StepKeepsInvariant :
    ∃ s t : State, s.Inv ∧ step s = .next t ∧ s.pending.length = 2 := by
  refine ⟨start [Presentation.ofWord 3#65, ⟨.bits 1#1, .sampledDout⟩], _, ⟨?_, rfl⟩, rfl, rfl⟩
  intro w h
  cases h

theorem witness_SafeRunNeverStops :
    (start [Presentation.ofWord 0x1FFFFFFFFFFFFFFFF#65]).safe = true ∧
    { start [] with inputs := ⟨.bits 1#1, .bits 7#64⟩ }.safe = true := by decide

/-- The inputs change at time 3 and power is good at time 1, so with `T_PD` of 4 they have settled at time 7 and not at
time 6. -/
theorem witness_DoutDependsOnCurrentInputsOnly :
    stableInputs (eventsUpTo [⟨3, wordInputs 5#65⟩] 7) = some ⟨3, ⟨.bits 0#1, .bits 5#64⟩⟩ ∧
    max 1 3 + (Config.mk 4 []).tPD ≤ 7 := by decide

theorem witness_PowerUpThenSettled :
    (stableInputs (eventsUpTo [⟨3, wordInputs 5#65⟩] 6) = some ⟨3, wordInputs 5#65⟩ ∧ 6 < max 1 3 + (Config.mk 4 []).tPD) ∧
    stableInputs (eventsUpTo [⟨3, wordInputs 5#65⟩] 2) = none ∧
    (stableInputs (eventsUpTo [⟨3, wordInputs 5#65⟩] 7) = some ⟨3, wordInputs 5#65⟩ ∧
      (wordInputs 5#65).word = .ok 5#65 ∧ max 1 3 + (Config.mk 4 []).tPD ≤ 7) := by decide

theorem witness_ReorderedProgramHasReorderedResults : ([1#65, 2#65] : List CommandWord).Perm [2#65, 1#65] := by decide

theorem witness_HeldCommandIsIdempotent :
    ∃ t : State, { start [] with inputs := ⟨.bits 0#1, .bits 5#64⟩ }.pending = [] ∧
      step { start [] with inputs := ⟨.bits 0#1, .bits 5#64⟩ } = .next t := ⟨_, rfl, rfl⟩

theorem witness_NoCommandRaisesAnException :
    (present (start [Presentation.ofWord 0x10000000000000000#65])).inputs.driven = true ∧
    (present { start [] with inputs := ⟨.bits 1#1, .bits 7#64⟩ }).inputs.driven = true := by decide

/-! ## The settling rule (R84) -/

/-- `T_PD` counts from the last input change: a repeated command needs no new wait, nor a hold of its own before the sample. -/
theorem test_settling_repeat :
    keepsSettling ⟨4, []⟩ 1 [⟨5#65, 3, 7⟩, ⟨5#65, 8, 9⟩] = true ∧
    keepsSettling ⟨4, []⟩ 1 [⟨5#65, 3, 9⟩, ⟨5#65, 5, 10⟩] = true := by decide

/-- A changed command must wait, also one that differs in `op` alone, and must not replace one that is not yet sampled. -/
theorem test_settling_change :
    keepsSettling ⟨4, []⟩ 1 [⟨5#65, 3, 7⟩, ⟨6#65, 8, 9⟩] = false ∧
    keepsSettling ⟨4, []⟩ 1 [⟨5#65, 3, 7⟩, ⟨0x10000000000000005#65, 8, 9⟩] = false ∧
    keepsSettling ⟨4, []⟩ 1 [⟨5#65, 3, 9⟩, ⟨6#65, 8, 12⟩] = false := by decide

/-- Each sample exactly `T_PD` after its presentation, the next command one instant later or at the sample itself; the
second repeats the first. -/
theorem witness_SettledSamplesAreTheMachinesResults :
    keepsSettling ⟨4, []⟩ 1 [⟨5#65, 3, 7⟩, ⟨5#65, 8, 12⟩, ⟨0x10000000000000005#65, 12, 16⟩] = true := by decide

/-- A repeat at the time of its first presentation and sampled with it, and a change at the instant of a sample. -/
theorem witness_SettlingCountsFromLastInputChange :
    (keepsSettling ⟨4, []⟩ 1 ([⟨6#65, 3, 7⟩] ++ [⟨5#65, 7, 11⟩]) = true ∧ 7 ≤ 7 ∧ 7 ≤ 11 ∧ 11 ≤ 11) ∧
    keepsSettling ⟨4, []⟩ 1 ([⟨6#65, 3, 7⟩] ++ [⟨5#65, 7, 11⟩, ⟨6#65, 11, 15⟩]) = true ∧ (6#65 : CommandWord) ≠ 5#65 := by
  decide

/-- A period that just suffices, power good as late as may be; and one with no clock-to-output and no setup time. -/
theorem witness_LongEnoughClockKeepsSettling :
    (11 ≤ 2 * 5 + 1 ∧ (Config.mk 4 []).tPD + 1 + 0 ≤ 5) ∧ 0 ≤ 0 * 4 + 0 ∧ (Config.mk 4 []).tPD + 0 + 0 ≤ 4 := by decide

/-- The two usual byte orders, and one that is neither. -/
theorem witness_StoredKeyReadsBack :
    (Config.mk 0 [0, 1, 2, 3, 4, 5, 6, 7]).wellFormed = true ∧ (Config.mk 0 [7, 6, 5, 4, 3, 2, 1, 0]).wellFormed = true ∧
    (Config.mk 0 [4, 5, 6, 7, 0, 1, 2, 3]).wellFormed = true := by decide

theorem witness_AssemblerRefusesWideNumerals :
    (0xFFFFFFFF < 2 ^ 32 ∧ 0 < 2 ^ 32) ∧ 0xFFFFFFFFFFFFFFFF < 2 ^ 64 ∧ (2 ^ 32 ≤ 0x100000000 ∨ 2 ^ 32 ≤ 0) ∧
    2 ^ 64 ≤ 0x10000000000000000 := by decide

end Sys2Proof.Tests
end

section
/-! SUPPORT. What one command of a program does, and the results of a whole program (R16, R24). -/

namespace Sys2Proof.Machine

/-- The decoder and the dispatch of R57 agree: running the command of a word drives `dout` with `F` of the word. -/
@[simp] theorem exec_decodeWord (w : CommandWord) (s : State) :
    exec (decodeWord w) s = .next (s.withDout (blockWord w)) := by
  by_cases hop : w.op = 0#1
  · simp [decodeWord, exec, blockWord, blockF, encodeDin, hop]
  · simp [decodeWord, exec, blockWord, blockF, decodeDin, hop]

/-- The first command of a program stands on the ports with its result on `dout`, and the rest is still to come; of the
state before nothing is left. -/
theorem step_withProgram_cons (s : State) (w : CommandWord) (ws : List CommandWord) :
    step (s.withProgram (w :: ws)) = .next (State.withProgram ⟨wordInputs w, blockWord w, []⟩ ws) := by
  have hpresent : present (s.withProgram (w :: ws)) = s.withInputs (wordInputs w) (ws.map Presentation.ofWord) := rfl
  rw [step, hpresent, settle_of_word (wordInputs_word w), exec_decodeWord]
  rfl

/-- The results of a program are those of its commands one by one, from every state. -/
theorem trace_withProgram (ws : List CommandWord) (s : State) :
    trace ws.length (s.withProgram ws) = ws.map blockWord := by
  induction ws generalizing s with
  | nil => rfl
  | cons w ws ih =>
    rw [List.length_cons, trace_next _ (step_withProgram_cons s w ws), ih, List.map_cons, State.withProgram_dout]

/-- Settles O33: the trace of the program is the map of `F` over it, so its two ends are both `F(w)`. -/
theorem repeatedCommandGivesSameResult : Obligations.RepeatedCommandGivesSameResult := by
  intro s w between
  have hlength : between.length + 2 = (w :: between ++ [w]).length := by simp
  have hends : trace (between.length + 2) (s.withProgram (w :: between ++ [w])) =
      blockWord w :: (between.map blockWord ++ [blockWord w]) := by
    rw [hlength, trace_withProgram]
    simp
  rw [hends]
  exact ⟨by simp, rfl, by simp [List.getLast?_cons]⟩

end Sys2Proof.Machine
end

section
/-! SUPPORT. How `cmd[64]` and `cmd[63:0]` decide what a command word decodes to (R36 to R39). -/

namespace Sys2Proof

open Machine

/-! ## The operation (R37) -/

theorem CommandWord.op_eq_zero_iff (w : CommandWord) : w.op = 0#1 ↔ w.getLsbD 64 = false := by
  have hbit : ∀ b : BitVec 1, b = 0#1 ↔ (b == 1#1) = false := by decide
  rw [BitVec.getLsbD_eq_extractLsb']
  exact hbit w.op

/-- "A decoder reads `cmd[64]` and nothing else" (R37). -/
theorem decodeWord_mnemonic (w : CommandWord) :
    (decodeWord w).mnemonic = if w.getLsbD 64 then .DECODE else .ENCODE := by
  unfold decodeWord
  simp only [w.op_eq_zero_iff]
  cases w.getLsbD 64 <;> rfl

/-- The mask of both rows of R37 keeps `cmd[64]` alone. -/
theorem and_opcodeMask (w : CommandWord) :
    w &&& 0x10000000000000000#65 = if w.getLsbD 64 then 0x10000000000000000#65 else 0x00000000000000000#65 :=
  BitVec.and_twoPow w 64

/-- The one row of R37's table that admits a word. -/
theorem opcodeTable_filter_admits (w : CommandWord) :
    opcodeTable.filter (fun r => r.admits w) =
      [if w.getLsbD 64 then ⟨.DECODE, 0x10000000000000000#65, 0x10000000000000000#65⟩
        else ⟨.ENCODE, 0x00000000000000000#65, 0x10000000000000000#65⟩] := by
  simp only [opcodeTable, List.filter, OpcodeRow.admits, and_opcodeMask]
  cases w.getLsbD 64 <;> rfl

/-- Settles O2: mask, match, admitting row and mnemonic are all read off `cmd[64]`, so its two values decide each clause. -/
theorem opcodeTableSelectsOperation : Obligations.OpcodeTableSelectsOperation := by
  constructor
  · intro w
    rw [decodeWord_mnemonic, and_opcodeMask, opcodeTable_filter_admits]
    cases w.getLsbD 64 <;> decide
  · intro w w' h
    rw [decodeWord_mnemonic, decodeWord_mnemonic, h]

/-! ## Every command word is legal (R39) -/

@[simp] theorem decodeNumber_toNat (w : CommandWord) : decodeNumber w.toNat = .ok (decodeWord w) := by
  rw [decodeNumber, if_pos w.isLt, BitVec.ofNat_toNat, BitVec.setWidth_eq]

@[simp] theorem Instr.wellFormed_eq_true (i : Instr) : i.wellFormed = true := by
  cases i <;> rfl

/-- Settles O3: no number below 2^65 and no field value is excluded, and a word runs to `F` of it on `dout`. -/
theorem everyCommandWordIsLegal : Obligations.EveryCommandWordIsLegal := fun w =>
  ⟨decodeNumber_toNat w, Instr.wellFormed_eq_true _, fun s => ⟨_, exec_decodeWord w s⟩⟩

/-! ## The operands (R38) -/

/-- With `op = 0` the operands are the two halves of `din`. -/
@[simp] theorem decodeWord_command_zero (din : Key) :
    decodeWord (command 0#1 din) = .encode (din.extractLsb' 0 32) (din.extractLsb' 32 32) := by
  rw [decodeWord, command_op, if_pos rfl, BitVec.extractLsb'_append_eq_of_add_le (by decide),
    BitVec.extractLsb'_append_eq_of_add_le (by decide)]

/-- With `op = 1` the operand is the whole of `din`. -/
@[simp] theorem decodeWord_command_one (din : Key) : decodeWord (command 1#1 din) = .decode din := by
  rw [decodeWord, command_op, if_neg (by decide), BitVec.extractLsb'_append_eq_right]

/-- Zero extension into the spreader keeps the coordinate's value (R38, R45). -/
@[simp] theorem spreadT0_toNat (v : Coord) : (spreadT0 v).toNat = v.toNat :=
  BitVec.toNat_setWidth_of_le (by decide)

/-- Settles O4: the operands are fields of `din`, and `x` and `y` packed into one `din` are the operands of it. -/
theorem operandAssembly : Obligations.OperandAssembly := by
  refine ⟨fun din => ⟨decodeWord_command_zero din, decodeWord_command_one din⟩, spreadT0_toNat, fun x y => ?_⟩
  exact ⟨packPair x y, by rw [decodeWord_command_zero, packPair_low, packPair_high]⟩

end Sys2Proof
end

section
/-! SUPPORT. Where each stage of the two cascades puts the bits (R47, R54), and from it the closed forms of `part1by1` and
`compact1by1` (R46, R53). -/

namespace Sys2Proof.Machine

/-! ## The places `P(i, s)` -/

/-- `P(i, s)` spreads the blocks of `s` bits to every second block and keeps the place inside the block. -/
theorem stagePosition_eq (i s : Nat) : stagePosition i s = 2 * s * (i / s) + i % s := by
  have hi := Nat.div_add_mod i s
  rw [stagePosition, Nat.mul_assoc]
  omega

theorem stagePosition_mod {s : Nat} (hs : 0 < s) (i : Nat) : stagePosition i s % (2 * s) = i % s := by
  have hlt := Nat.mod_lt i hs
  rw [stagePosition_eq, Nat.mul_add_mod, Nat.mod_eq_of_lt (by omega)]

theorem stagePosition_mod_lt {s : Nat} (hs : 0 < s) (i : Nat) : stagePosition i s % (2 * s) < s := by
  rw [stagePosition_mod hs]
  exact Nat.mod_lt i hs

theorem stagePosition_one (i : Nat) : stagePosition i 1 = 2 * i := by
  rw [stagePosition, Nat.mod_one, Nat.sub_zero]

theorem stagePosition_thirtyTwo {i : Nat} (hi : i < 32) : stagePosition i 32 = i := by
  rw [stagePosition, Nat.mod_eq_of_lt hi]
  omega

theorem stagePosition_lt {i : Nat} (hi : i < 32) (s : Nat) : stagePosition i s < 64 := by
  unfold stagePosition
  omega

/-- A set bit of `MASK_s` is the place of some bit. -/
theorem exists_stagePosition_eq {s q : Nat} (hs : s ∣ 32) (hq : q < 64) (hmod : q % (2 * s) < s) :
    ∃ i, i < 32 ∧ q = stagePosition i s := by
  obtain ⟨k, hk⟩ := hs
  have hblock : q / (2 * s) < k := Nat.div_lt_of_lt_mul (by rw [Nat.mul_assoc]; omega)
  have hfits : s * (q / (2 * s) + 1) ≤ s * k := Nat.mul_le_mul_left s hblock
  refine ⟨s * (q / (2 * s)) + q % (2 * s), by rw [Nat.mul_add] at hfits; omega, ?_⟩
  rw [stagePosition_eq, Nat.mul_add_div (by omega), Nat.div_eq_of_lt hmod, Nat.mul_add_mod, Nat.mod_eq_of_lt hmod,
    Nat.add_zero, Nat.div_add_mod]

/-- A stage with shift `s` leaves the low half of each block of `2s` bits in place and moves the high half by `s`. -/
theorem stagePosition_halve (i s : Nat) :
    (i % (2 * s) = i % s ∧ stagePosition i s = stagePosition i (2 * s)) ∨
    (i % (2 * s) = i % s + s ∧ stagePosition i s = stagePosition i (2 * s) + s) := by
  have hle := Nat.mod_le i (2 * s)
  have hmod : i % (2 * s) = i % s + s * (i / s % 2) := by rw [Nat.mul_comm 2 s, Nat.mod_mul]
  unfold stagePosition
  rcases Nat.mod_two_eq_zero_or_one (i / s) with h | h <;> rw [h] at hmod <;> omega

/-- A shift that stays inside its block of `n` bits adds to the place inside the block. -/
theorem add_mod_of_lt {q s n : Nat} (h : q % n + s < n) : (q + s) % n = q % n + s := by
  have hs : s % n = s := Nat.mod_eq_of_lt (by omega)
  rw [Nat.add_mod_of_add_mod_lt (by omega), hs]

/-! ## The layout of each stage (R47, R54) -/

/-- The masks decide which places hold a bit at all, so a layout is known from the places of the 32 bits. -/
theorem stageLayout_of_mask {s : Nat} {bit : Nat → Bool} {t : Key} (hs : s ∣ 32)
    (hplace : ∀ i, i < 32 → t.getLsbD (stagePosition i s) = bit i)
    (hmask : ∀ q, q < 64 → t.getLsbD q = true → q % (2 * s) < s) : StageLayout s bit t := by
  refine ⟨hplace, fun q hq hfree => ?_, hmask⟩
  rw [Bool.eq_false_iff]
  intro hset
  obtain ⟨i, hi, hqi⟩ := exists_stagePosition_eq hs hq (hmask q hq hset)
  exact hfree i hi hqi

theorem StageLayout.getLsbD_stagePosition {s i : Nat} {bit : Nat → Bool} {t : Key} (h : StageLayout s bit t)
    (hi : i < 32) : t.getLsbD (stagePosition i s) = bit i :=
  h.1 i hi

/-- Outside the set bits of `MASK_s` a layout is 0. -/
theorem StageLayout.getLsbD_eq_false {s q : Nat} {bit : Nat → Bool} {t : Key} (h : StageLayout s bit t)
    (hmod : s ≤ q % (2 * s)) : t.getLsbD q = false := by
  obtain ⟨-, -, hmask⟩ := h
  rw [Bool.eq_false_iff]
  intro hset
  exact absurd (hmask q (BitVec.lt_of_getLsbD hset) hset) (by omega)

/-- A spread stage with shift `s` brings bit `i` to `P(i, s)`: it either stands there already, and the shifted copy is 0
there, or it comes from `s` places below, and the unshifted value is 0 there (R49). -/
theorem spreadRound_getLsbD_stagePosition {s i : Nat} {bit : Nat → Bool} {mask t : Key} (h : StageLayout (2 * s) bit t)
    (hs : 0 < s) (hmask : ∀ q, q < 64 → mask.getLsbD q = decide (q % (2 * s) < s)) (hi : i < 32) :
    (spreadRound s mask t).getLsbD (stagePosition i s) = bit i := by
  have hq := stagePosition_lt hi s
  have hbit := h.getLsbD_stagePosition hi
  have hbefore := stagePosition_mod (s := 2 * s) (by omega) i
  have hlt := Nat.mod_lt i hs
  rw [spreadRound_getLsbD s mask t hq, hmask _ hq, decide_eq_true (stagePosition_mod_lt hs i), Bool.and_true]
  rcases stagePosition_halve i s with ⟨hlow, heq⟩ | ⟨hhigh, heq⟩ <;> rw [heq]
  · have hshifted : (decide (s ≤ stagePosition i (2 * s)) && t.getLsbD (stagePosition i (2 * s) - s)) = false := by
      rw [Bool.and_eq_false_imp, decide_eq_true_iff]
      refine fun hle => h.getLsbD_eq_false (Nat.le_of_not_lt fun hmod => ?_)
      have hback := add_mod_of_lt (q := stagePosition i (2 * s) - s) (s := s) (n := 2 * (2 * s)) (by omega)
      rw [Nat.sub_add_cancel hle] at hback
      omega
    rw [hshifted, hbit, Bool.xor_false]
  · have hstay : t.getLsbD (stagePosition i (2 * s) + s) = false :=
      h.getLsbD_eq_false (by rw [add_mod_of_lt (by omega)]; omega)
    rw [hstay, Nat.add_sub_cancel, hbit, decide_eq_true (Nat.le_add_left _ _), Bool.true_and, Bool.false_xor]

/-- A spread stage halves the blocks (R47). -/
theorem spreadRound_layout {s : Nat} {bit : Nat → Bool} {mask t : Key} (h : StageLayout (2 * s) bit t)
    (hs : 0 < s) (hdvd : s ∣ 32) (hmask : ∀ q, q < 64 → mask.getLsbD q = decide (q % (2 * s) < s)) :
    StageLayout s bit (spreadRound s mask t) := by
  refine stageLayout_of_mask hdvd (fun i => spreadRound_getLsbD_stagePosition h hs hmask) fun q hq hset => ?_
  rw [spreadRound_getLsbD s mask t hq, hmask q hq, Bool.and_eq_true, decide_eq_true_iff] at hset
  exact hset.2

/-- A compact stage with shift `s` brings bit `i` to `P(i, 2s)`: it either stands there already, and the shifted copy is 0
there, or it comes from `s` places above, and the unshifted value is 0 there (R54). -/
theorem compactRound_getLsbD_stagePosition {s i : Nat} {bit : Nat → Bool} {mask u : Key} (h : StageLayout s bit u)
    (hs : 0 < s) (hmask : ∀ q, q < 64 → mask.getLsbD q = decide (q % (2 * (2 * s)) < 2 * s)) (hi : i < 32) :
    (compactRound s mask u).getLsbD (stagePosition i (2 * s)) = bit i := by
  have hbit := h.getLsbD_stagePosition hi
  have hbefore := stagePosition_mod_lt hs i
  rw [compactRound_getLsbD, hmask _ (stagePosition_lt hi _), decide_eq_true (stagePosition_mod_lt (by omega) i),
    Bool.and_true, Nat.add_comm s]
  rcases stagePosition_halve i s with ⟨-, heq⟩ | ⟨-, heq⟩ <;> rw [heq] at hbit hbefore
  · have hshifted : u.getLsbD (stagePosition i (2 * s) + s) = false :=
      h.getLsbD_eq_false (by rw [add_mod_of_lt (by omega)]; omega)
    rw [hshifted, hbit, Bool.xor_false]
  · have hstay : u.getLsbD (stagePosition i (2 * s)) = false := by
      refine h.getLsbD_eq_false (Nat.le_of_not_lt fun hmod => ?_)
      have hmoved := add_mod_of_lt (q := stagePosition i (2 * s)) (s := s) (n := 2 * s) (by omega)
      omega
    rw [hstay, hbit, Bool.false_xor]

/-- A compact stage doubles the blocks (R54). -/
theorem compactRound_layout {s : Nat} {bit : Nat → Bool} {mask u : Key} (h : StageLayout s bit u)
    (hs : 0 < s) (hdvd : 2 * s ∣ 32) (hmask : ∀ q, q < 64 → mask.getLsbD q = decide (q % (2 * (2 * s)) < 2 * s)) :
    StageLayout (2 * s) bit (compactRound s mask u) := by
  refine stageLayout_of_mask hdvd (fun i => compactRound_getLsbD_stagePosition h hs hmask) fun q hq hset => ?_
  rw [compactRound_getLsbD, hmask q hq, Bool.and_eq_true, decide_eq_true_iff] at hset
  exact hset.2

/-! ## The masks (R44) -/

theorem mask1_getLsbD : ∀ q, q < 64 → mask1.getLsbD q = decide (q % (2 * 1) < 1) := by decide
theorem mask2_getLsbD : ∀ q, q < 64 → mask2.getLsbD q = decide (q % (2 * 2) < 2) := by decide
theorem mask4_getLsbD : ∀ q, q < 64 → mask4.getLsbD q = decide (q % (2 * 4) < 4) := by decide
theorem mask8_getLsbD : ∀ q, q < 64 → mask8.getLsbD q = decide (q % (2 * 8) < 8) := by decide
theorem mask16_getLsbD : ∀ q, q < 64 → mask16.getLsbD q = decide (q % (2 * 16) < 16) := by decide
theorem mask32_getLsbD : ∀ q, q < 64 → mask32.getLsbD q = decide (q % (2 * 32) < 32) := by decide

/-! ## The two cascades, stage by stage -/

theorem spreadT0_layout (v : Coord) : StageLayout 32 v.getLsbD (spreadT0 v) := by
  refine stageLayout_of_mask (by decide) (fun i hi => ?_) fun q hq hset => ?_
  · rw [stagePosition_thirtyTwo hi, spreadT0, BitVec.getLsbD_setWidth]
    simp [show i < 64 by omega]
  · rw [spreadT0, BitVec.getLsbD_setWidth, Bool.and_eq_true] at hset
    have hlow := BitVec.lt_of_getLsbD hset.2
    omega

theorem spreadT1_layout (v : Coord) : StageLayout 16 v.getLsbD (spreadT1 v) :=
  spreadRound_layout (spreadT0_layout v) (by decide) (by decide) mask16_getLsbD

theorem spreadT2_layout (v : Coord) : StageLayout 8 v.getLsbD (spreadT2 v) :=
  spreadRound_layout (spreadT1_layout v) (by decide) (by decide) mask8_getLsbD

theorem spreadT3_layout (v : Coord) : StageLayout 4 v.getLsbD (spreadT3 v) :=
  spreadRound_layout (spreadT2_layout v) (by decide) (by decide) mask4_getLsbD

theorem spreadT4_layout (v : Coord) : StageLayout 2 v.getLsbD (spreadT4 v) :=
  spreadRound_layout (spreadT3_layout v) (by decide) (by decide) mask2_getLsbD

theorem spreadT5_layout (v : Coord) : StageLayout 1 v.getLsbD (spreadT5 v) :=
  spreadRound_layout (spreadT4_layout v) (by decide) (by decide) mask1_getLsbD

theorem compactU0_layout (k : Key) : StageLayout 1 (fun i => k.getLsbD (2 * i)) (compactU0 k) := by
  refine stageLayout_of_mask (by decide) (fun i hi => ?_) fun q hq hset => ?_
  · rw [stagePosition_one, compactU0, BitVec.getLsbD_and, mask1_getLsbD _ (by omega)]
    simp
  · rw [compactU0, BitVec.getLsbD_and, mask1_getLsbD q hq, Bool.and_eq_true, decide_eq_true_iff] at hset
    exact hset.2

theorem compactU1_layout (k : Key) : StageLayout 2 (fun i => k.getLsbD (2 * i)) (compactU1 k) :=
  compactRound_layout (compactU0_layout k) (by decide) (by decide) mask2_getLsbD

theorem compactU2_layout (k : Key) : StageLayout 4 (fun i => k.getLsbD (2 * i)) (compactU2 k) :=
  compactRound_layout (compactU1_layout k) (by decide) (by decide) mask4_getLsbD

theorem compactU3_layout (k : Key) : StageLayout 8 (fun i => k.getLsbD (2 * i)) (compactU3 k) :=
  compactRound_layout (compactU2_layout k) (by decide) (by decide) mask8_getLsbD

theorem compactU4_layout (k : Key) : StageLayout 16 (fun i => k.getLsbD (2 * i)) (compactU4 k) :=
  compactRound_layout (compactU3_layout k) (by decide) (by decide) mask16_getLsbD

theorem compactU5_layout (k : Key) : StageLayout 32 (fun i => k.getLsbD (2 * i)) (compactU5 k) :=
  compactRound_layout (compactU4_layout k) (by decide) (by decide) mask32_getLsbD

/-! ## The closed forms (R46, R53) -/

theorem part1by1_getLsbD_even (v : Coord) {i : Nat} (hi : i < 32) : (part1by1 v).getLsbD (2 * i) = v.getLsbD i := by
  rw [part1by1, ← stagePosition_one, (spreadT5_layout v).getLsbD_stagePosition hi]

@[simp] theorem part1by1_getLsbD_odd (v : Coord) (i : Nat) : (part1by1 v).getLsbD (2 * i + 1) = false :=
  (spreadT5_layout v).getLsbD_eq_false (by omega)

theorem compact1by1_getLsbD (k : Key) {i : Nat} (hi : i < 32) : (compact1by1 k).getLsbD i = k.getLsbD (2 * i) := by
  have hbit := (compactU5_layout k).getLsbD_stagePosition hi
  rw [stagePosition_thirtyTwo hi] at hbit
  rw [compact1by1, BitVec.getLsbD_setWidth, hbit, decide_eq_true hi, Bool.true_and]

end Sys2Proof.Machine
end

section
/-! SUPPORT. What ENCODE and DECODE drive `dout` with (R57 to R64). -/

namespace Sys2Proof.Machine

/-! ## The bits of ENCODE's operands and key (R58, R60) -/

@[simp] theorem spreadOdd_getLsbD_even (y : Coord) {i : Nat} (hi : i < 32) : (spreadOdd y).getLsbD (2 * i) = false := by
  rw [spreadOdd_getLsbD y (by omega)]
  cases i with
  | zero => rfl
  | succ i => rw [show 2 * (i + 1) - 1 = 2 * i + 1 by omega, part1by1_getLsbD_odd, Bool.and_false]

theorem spreadOdd_getLsbD_odd (y : Coord) {i : Nat} (hi : i < 32) :
    (spreadOdd y).getLsbD (2 * i + 1) = y.getLsbD i := by
  rw [spreadOdd_getLsbD y (by omega), Nat.add_sub_cancel, part1by1_getLsbD_even y hi]
  simp

/-- `ey AND ex = 0` (R60). -/
theorem spreadOdd_and_spreadEven (x y : Coord) : spreadOdd y &&& spreadEven x = 0#64 := by
  apply key_ext <;> intro i hi
  · simp [hi]
  · simp [spreadEven]

/-- "addition is equivalent to OR" (R60). -/
theorem interleave_eq_or (x y : Coord) : interleave x y = spreadOdd y ||| spreadEven x :=
  BitVec.add_eq_or_of_and_eq_zero _ _ (spreadOdd_and_spreadEven x y)

theorem interleave_getLsbD_even (x y : Coord) {i : Nat} (hi : i < 32) :
    (interleave x y).getLsbD (2 * i) = x.getLsbD i := by
  rw [interleave_eq_or, BitVec.getLsbD_or, spreadOdd_getLsbD_even y hi, Bool.false_or, spreadEven,
    part1by1_getLsbD_even x hi]

theorem interleave_getLsbD_odd (x y : Coord) {i : Nat} (hi : i < 32) :
    (interleave x y).getLsbD (2 * i + 1) = y.getLsbD i := by
  rw [interleave_eq_or, BitVec.getLsbD_or, spreadOdd_getLsbD_odd y hi, spreadEven, part1by1_getLsbD_odd, Bool.or_false]

/-! ## The bits of DECODE's two results (R64) -/

theorem evenBits_getLsbD (key : Key) {i : Nat} (hi : i < 32) : (evenBits key).getLsbD i = key.getLsbD (2 * i) :=
  compact1by1_getLsbD key hi

theorem oddBits_getLsbD (key : Key) {i : Nat} (hi : i < 32) : (oddBits key).getLsbD i = key.getLsbD (2 * i + 1) := by
  rw [oddBits, compact1by1_getLsbD _ hi, BitVec.getLsbD_ushiftRight, Nat.add_comm]

/-! ## The two operations (R57 to R59, R63) -/

theorem exec_encode (x y : Coord) (s : State) : exec (.encode x y) s = .next (s.withDout (interleave x y)) := rfl

theorem exec_decode (key : Key) (s : State) :
    exec (.decode key) s = .next (s.withDout (packPair (evenBits key) (oddBits key))) := rfl

/-- Settles O7: the operands are the halves of `din`, and the sum is an OR because the two spread values are disjoint. -/
theorem encodeResult : Obligations.EncodeResult := by
  refine ⟨fun din s => ⟨?_, interleave_eq_or _ _⟩, fun s => ?_⟩
  · rw [decodeWord_command_zero, exec_encode]
    rfl
  · rw [exec_encode, show interleave 0x00123456#32 0x00456789#32 = 0x000021262D3A9196#64 by decide]
    rfl

/-- Settles O9: bit by bit, from the closed forms of the interleaved key and of the two compacted halves. -/
theorem keyLayoutOfBothOperations : Obligations.KeyLayoutOfBothOperations := by
  refine ⟨fun x y s => ⟨_, exec_encode x y s, fun i hi => ?_⟩, fun key s => ⟨_, exec_decode key s, fun i hi => ?_⟩⟩
  · exact ⟨interleave_getLsbD_even x y hi, interleave_getLsbD_odd x y hi⟩
  · rw [State.withDout_dout, packPair_low, packPair_high]
    exact ⟨(evenBits_getLsbD key hi).symm, (oddBits_getLsbD key hi).symm⟩

/-- Settles O8: `dout` is the pair of the odd and the even bits of the key, whose halves are the two compacted values. -/
theorem decodeResult : Obligations.DecodeResult := by
  refine ⟨fun din s => ?_, fun s => ?_⟩
  · rw [decodeWord_command_one]
    exact ⟨_, exec_decode din s, packPair_high _ _, packPair_low _ _, rfl, rfl⟩
  · have hexample : packPair (evenBits 0x000021262D3A9196#64) (oddBits 0x000021262D3A9196#64) = 0x0045678900123456#64 := by
      decide
    rw [exec_decode, hexample]
    rfl

/-- Settles O10: the decoder reads back the two ports as `op` and `din`, and `F` of them is selected by `op`. -/
theorem dispatchSelectsOneResult : Obligations.DispatchSelectsOneResult := by
  intro op din s
  rw [exec_decodeWord, blockWord, command_op, command_din]
  rfl

end Sys2Proof.Machine
end

section
/-! SUPPORT. No command and no step raises an exception (R69, R70). -/

namespace Sys2Proof.Machine

/-- "The list is empty" (R70). -/
theorem isEmpty_fault : IsEmpty Fault := ⟨nofun⟩

/-- The value that a command drives `dout` with, whatever the state before (R57). -/
theorem exec_withDout_of_any_state (i : Instr) : ∃ v : Key, ∀ s : State, exec i s = .next (s.withDout v) := by
  cases i with
  | encode x y => exact ⟨interleave x y, exec_encode x y⟩
  | decode key => exact ⟨packPair (evenBits key) (oddBits key), exec_decode key⟩

/-- A step whose ports, once the next command is presented, carry 2-state values runs that command (R69, R83). -/
theorem step_next_of_driven {s : State} (h : (present s).inputs.driven = true) : ∃ t : State, step s = .next t := by
  obtain ⟨w, hw⟩ := Inputs.word_of_driven h
  exact ⟨(present s).withDout (blockWord w), by rw [step, settle_of_word hw, exec_decodeWord]⟩

/-- Settles O37: each command has its value from its operands alone, driven ports carry a command word, and there is no
cause to fault with. -/
theorem noCommandRaisesAnException : Obligations.NoCommandRaisesAnException :=
  ⟨isEmpty_fault, exec_withDout_of_any_state, fun _ => step_next_of_driven, fun _ f => isEmpty_fault.elim f⟩

end Sys2Proof.Machine
end

section
/-! SUPPORT. Commands and command words are the same thing written twice (R36 to R40). -/

namespace Sys2Proof

open Machine

/-- `0 ++ y ++ x` (R36). -/
theorem encodeWord_encode (x y : Coord) : encodeWord (.encode x y) = command 0#1 (packPair x y) := rfl

/-- `1 ++ key` (R36). -/
theorem encodeWord_decode (key : Key) : encodeWord (.decode key) = command 1#1 key := rfl

@[simp] theorem decodeWord_encodeWord (i : Instr) : decodeWord (encodeWord i) = i := by
  cases i with
  | encode x y => rw [encodeWord_encode, decodeWord_command_zero, packPair_low, packPair_high]
  | decode key => rw [encodeWord_decode, decodeWord_command_one]

@[simp] theorem encodeWord_decodeWord (w : CommandWord) : encodeWord (decodeWord w) = w := by
  rw [← command_parts w]
  rcases BitVec.eq_zero_or_eq_one w.op with hop | hop <;> rw [hop]
  · rw [decodeWord_command_zero, encodeWord_encode, packPair_halves]
  · rw [decodeWord_command_one, encodeWord_decode]

/-- Settles O1: a command's word is one of its formats, and a word is its `op` and `din`, whose two values of `op` give the
two formats back. -/
theorem decodingInvertsEncoding : Obligations.DecodingInvertsEncoding :=
  ⟨decodeWord_encodeWord, encodeWord_decodeWord⟩

/-! ## Numbers that are read as commands (R40) -/

theorem decodeNumber_of_lt {n : Nat} (h : n < 2 ^ 65) : decodeNumber n = .ok (decodeWord (BitVec.ofNat 65 n)) := if_pos h

theorem decodeNumber_of_le {n : Nat} (h : 2 ^ 65 ≤ n) : decodeNumber n = .error .longerThanCommand :=
  if_neg (Nat.not_lt.2 h)

theorem tableNumber_of_lt {nbits n : Nat} (h : n < 2 ^ nbits) : tableNumber nbits n = n := Nat.mod_eq_of_lt h

/-- The table's reading of a word is the decoder's reading of its number. -/
theorem decodeTableWord_eq_some_iff {nbits n : Nat} {i : Instr} :
    decodeTableWord nbits n = some i ↔ decodeNumber (tableNumber nbits n) = .ok i := by
  unfold decodeTableWord
  cases decodeNumber (tableNumber nbits n) <;> simp

theorem decodeTableWord_eq_none_iff {nbits n : Nat} :
    decodeTableWord nbits n = none ↔ decodeNumber (tableNumber nbits n) = .error .longerThanCommand := by
  unfold decodeTableWord
  cases decodeNumber (tableNumber nbits n) <;> simp

/-- A number that the table's bits hold a command in is the command's word. -/
theorem decodeWord_of_decodeTableWord {nbits n : Nat} {i : Instr} (h : decodeTableWord nbits n = some i) :
    decodeWord (BitVec.ofNat 65 (tableNumber nbits n)) = i := by
  rw [decodeTableWord_eq_some_iff] at h
  by_cases hn : tableNumber nbits n < 2 ^ 65
  · rw [decodeNumber_of_lt hn] at h
    exact Except.ok.inj h
  · rw [decodeNumber_of_le (Nat.not_lt.1 hn)] at h
    cases h

/-- Settles O5: a number that fits the table's bits is itself, and `2^65` parts the commands from what is wider. -/
theorem onlyWiderNumbersAreRejected : Obligations.OnlyWiderNumbersAreRejected := by
  refine fun nbits n => ⟨fun hn hbits => ?_, decodeNumber_of_le, fun hn hbits => ?_⟩
  · rw [decodeTableWord_eq_some_iff, tableNumber_of_lt hbits, decodeNumber_of_lt hn]
  · rw [decodeTableWord_eq_none_iff, tableNumber_of_lt hbits, decodeNumber_of_le hn]

/-- Settles O6: the two words are the encodings of the two commands. -/
theorem decodedWordsOfTheKnownVector : Obligations.DecodedWordsOfTheKnownVector :=
  ⟨decodeWord_encodeWord (.encode 0x00123456#32 0x00456789#32), decodeWord_encodeWord (.decode 0x000021262D3A9196#64)⟩

end Sys2Proof
end

section
/-! SUPPORT. What a step from any state does to the ports, to `dout` and to the commands still to come (R16, R20, R84). -/

namespace Sys2Proof.Machine

/-! ## Presenting -/

/-- Presenting takes the next command off the list, and an empty list stays empty. -/
@[simp] theorem present_pending (s : State) : (present s).pending = s.pending.tail := by
  cases h : s.pending with
  | nil => rw [present_nil h, h, List.tail_nil]
  | cons p rest => rw [present_cons h, State.withInputs_pending, List.tail_cons]

/-- With driven commands only, presenting leaves the ports driven (R83). -/
theorem present_driven_of_safe {s : State} (h : s.safe = true) : (present s).inputs.driven = true := by
  rw [State.safe, Bool.and_eq_true, Bool.or_eq_true] at h
  obtain ⟨hpending, hports⟩ := h
  cases hs : s.pending with
  | nil =>
    rw [present_nil hs]
    simpa [hs] using hports
  | cons p rest =>
    rw [hs, List.all_cons, Bool.and_eq_true] at hpending
    rw [present_cons hs, State.withInputs_inputs]
    exact Presentation.resolve_driven hpending.1 s.dout

/-- Taking a command off a list of driven ones leaves driven ones. -/
theorem present_pending_driven {s : State} (h : s.pending.all Presentation.driven = true) :
    (present s).pending.all Presentation.driven = true := by
  rw [present_pending]
  rw [List.all_eq_true] at h ⊢
  exact fun p hp => h p (List.mem_of_mem_tail hp)

/-! ## The step -/

/-- A step on 2-state inputs drives `dout` with `F` of them, after presenting (R57). -/
theorem step_of_word {s : State} {w : CommandWord} (h : (present s).inputs.word = .ok w) :
    step s = .next ((present s).withDout (blockWord w)) := by
  rw [step, settle_of_word h, exec_decodeWord]

theorem step_of_refusal {s : State} {r : Refusal} (h : (present s).inputs.word = .error r) : step s = .refused r :=
  settle_of_refusal h

/-- Everything that a step which goes on has done. -/
theorem step_eq_next_iff {s t : State} :
    step s = .next t ↔ ∃ w, (present s).inputs.word = .ok w ∧ (present s).withDout (blockWord w) = t := by
  constructor
  · intro h
    obtain ⟨w, hw, hexec⟩ := step_cases h
    rw [exec_decodeWord] at hexec
    exact ⟨w, hw, Host.Outcome.next.inj hexec⟩
  · rintro ⟨w, hw, rfl⟩
    exact step_of_word hw

/-- The step that presents `p`, where `p` puts a command word on the ports. -/
theorem step_pending_cons {w : CommandWord} (s : State) (p : Presentation) (rest : List Presentation)
    (h : (p.resolve s.dout).word = .ok w) :
    step { s with pending := p :: rest } = .next ⟨p.resolve s.dout, blockWord w, rest⟩ := step_of_word h

/-- The step that presents `p`, where the model refuses what `p` puts on the ports. -/
theorem step_pending_cons_refused {r : Refusal} (s : State) (p : Presentation) (rest : List Presentation)
    (h : (p.resolve s.dout).word = .error r) : step { s with pending := p :: rest } = .refused r := step_of_refusal h

/-! ## What every step keeps -/

/-- The ports carry one command, so a state whose `dout` is its result is settled (R16). -/
theorem withDout_settled {s : State} {w : CommandWord} (h : s.inputs.word = .ok w) :
    (s.withDout (blockWord w)).Settled := by
  intro w' hw'
  rw [State.withDout_inputs, h] at hw'
  rw [State.withDout_dout, Except.ok.inj hw']

/-- Settles O29: the command on the ports after the step is the one just run, and one driven command less is to come. -/
theorem stepKeepsInvariant : Obligations.StepKeepsInvariant := by
  rintro s t ⟨-, hpending⟩ hstep
  obtain ⟨w, hw, rfl⟩ := step_eq_next_iff.1 hstep
  exact ⟨withDout_settled hw, present_pending_driven hpending⟩

/-- Settles O31: the ports are driven once the next command is presented, so they carry a command word and the step runs
it; the driven ports and the remaining driven commands make the next state safe. -/
theorem safeRunNeverStops : Obligations.SafeRunNeverStops := by
  intro s hsafe
  have hports := present_driven_of_safe hsafe
  obtain ⟨w, hw⟩ := Inputs.word_of_driven hports
  refine ⟨_, step_of_word hw, ?_, withDout_settled hw⟩
  rw [State.safe, Bool.and_eq_true] at hsafe
  simp only [State.safe, State.withDout_pending, State.withDout_inputs, hports, present_pending_driven hsafe.1,
    Bool.true_or, Bool.and_true]

theorem Presentation.ofWord_driven (w : CommandWord) : (Presentation.ofWord w).driven = true := rfl

/-- Settles O30: the undriven ports of reset carry no command, and command words are driven. -/
theorem resetMeetsInvariantAndIsSafeWithAProgram : Obligations.ResetMeetsInvariantAndIsSafeWithAProgram := by
  refine ⟨⟨fun w hw => ?_, rfl⟩, fun w ws => ?_⟩
  · cases hw
  · simp [State.safe, Presentation.ofWord_driven]

/-! ## One step, case by case -/

/-- Settles O11: a command's outcome is the state with another `dout`. -/
theorem commandChangesOnlyDout : Obligations.CommandChangesOnlyDout := by
  intro i s
  obtain ⟨v, hexec⟩ := exec_next i s
  exact ⟨_, hexec, rfl⟩

/-- Settles O28: presenting puts `p` or the held inputs on the ports, and a number that the table reads as a command is
that command's word. -/
theorem stepRunsTheDecodedCommand : Obligations.StepRunsTheDecodedCommand := by
  refine ⟨fun s p rest w hs hw => ?_, fun s w hs hw => ?_, fun s nbits n i hi => ?_⟩
  · rw [step, present_cons hs, settle_of_word hw]
    rfl
  · rw [step, present_nil hs, settle_of_word hw]
  · rw [← decodeWord_of_decodeTableWord hi, exec_decodeWord]
    exact step_pending_cons s (Presentation.ofWord _) _ (wordInputs_word _)

/-- Settles O36: with nothing pending a step changes `dout` alone, so the next one runs the same command. -/
theorem heldCommandIsIdempotent : Obligations.HeldCommandIsIdempotent := by
  intro s t hs hstep
  obtain ⟨w, hw, rfl⟩ := step_eq_next_iff.1 hstep
  rw [present_nil hs] at hw ⊢
  have hheld : present (s.withDout (blockWord w)) = s.withDout (blockWord w) := present_nil hs
  rw [step_of_word (w := w) (by rw [hheld]; exact hw), hheld]
  rfl

/-- The ports carry no word where `op` has none, whatever `din` is (log entry 6). -/
theorem Inputs.word_of_op_error {i : Inputs} {r : Refusal} (h : i.op.value = .error r) : i.word = .error r := by
  simp [Inputs.word, h]

theorem Presentation.resolve_op (p : Presentation) (sample : Key) : (p.resolve sample).op = p.op := by
  obtain ⟨op, _ | _⟩ := p <;> rfl

/-- A presentation whose `op` has no 2-state value is refused by the name of `op`'s cause, whatever `din` is. -/
theorem step_refused_of_op {op : Drive 1} {r : Refusal} (h : op.value = .error r) (s : State) (d : DinSource)
    (rest : List Presentation) : step { s with pending := ⟨op, d⟩ :: rest } = .refused r :=
  step_pending_cons_refused s _ rest (Inputs.word_of_op_error (by rw [Presentation.resolve_op]; exact h))

/-- A presentation with `op` driven is refused by the name of `din`'s cause. -/
theorem step_refused_of_din {din : Drive 64} {r : Refusal} (h : din.value = .error r) (s : State) (op : BitVec 1)
    (rest : List Presentation) : step { s with pending := ⟨.bits op, .port din⟩ :: rest } = .refused r :=
  step_pending_cons_refused s _ rest (by simp [Inputs.word, h])

@[simp] theorem blockWord_command (op : BitVec 1) (din : Key) : blockWord (command op din) = blockF op din := by
  rw [blockWord, command_op, command_din]

/-- A presentation that takes `din` from the sampled `dout` runs on it (R86). -/
theorem step_sampledDout (s : State) (op : BitVec 1) (rest : List Presentation) :
    step { s with pending := ⟨.bits op, .sampledDout⟩ :: rest } =
      .next ⟨⟨.bits op, .bits s.dout⟩, blockF op s.dout, rest⟩ := by
  rw [step_pending_cons s ⟨.bits op, .sampledDout⟩ rest (Inputs.word_bits op s.dout), blockWord_command,
    Presentation.resolve_sampledDout]

/-- A presentation that drives both ports runs on what it drives. -/
theorem step_driven (s : State) (op : BitVec 1) (din : Key) (rest : List Presentation) :
    step { s with pending := ⟨.bits op, .port (.bits din)⟩ :: rest } =
      .next ⟨⟨.bits op, .bits din⟩, blockF op din, rest⟩ := by
  rw [step_pending_cons s ⟨.bits op, .port (.bits din)⟩ rest (Inputs.word_bits op din), blockWord_command,
    Presentation.resolve_port]

/-- Settles O38: feedback on `op`, or on `din` with `op` driven, has no value; the sampled `dout` has one. -/
theorem combinationalLoopIsRefused : Obligations.CombinationalLoopIsRefused :=
  ⟨step_refused_of_op Drive.value_feedback, step_refused_of_din Drive.value_feedback, step_sampledDout⟩

/-- Settles O39: an undriven `op`, or an undriven `din` with `op` driven, has no value; both ports are undriven at reset. -/
theorem undrivenInputIsRefused : Obligations.UndrivenInputIsRefused :=
  ⟨step_refused_of_op Drive.value_undriven, step_refused_of_din Drive.value_undriven,
    step_of_refusal (s := State.reset) (Inputs.word_of_op_error Drive.value_undriven)⟩

/-! ## A whole program -/

/-- The host's core runs a program to its end, where its last command stands on the ports. -/
theorem run_withProgram (ws : List CommandWord) (s : State) :
    ∃ t : State, Host.Core.run core ws.length (s.withProgram ws) = .next t ∧ t.pending = [] ∧
      t.inputs = (ws.getLast?.map wordInputs).getD s.inputs := by
  induction ws generalizing s with
  | nil => exact ⟨_, rfl, rfl, rfl⟩
  | cons w ws ih =>
    obtain ⟨t, hrun, hpending, hinputs⟩ := ih ⟨wordInputs w, blockWord w, []⟩
    refine ⟨t, ?_, hpending, ?_⟩
    · have hfirst : core.step (s.withProgram (w :: ws)) = .next (State.withProgram ⟨wordInputs w, blockWord w, []⟩ ws) :=
        step_withProgram_cons s w ws
      exact (run_next core ws.length hfirst).trans hrun
    · rw [hinputs, List.getLast?_cons]
      cases ws.getLast? <;> rfl

/-- Settles O34: by induction over the program, each command answering its own result. -/
theorem programResultsAreItsCommandsResults : Obligations.ProgramResultsAreItsCommandsResults :=
  fun ws s => ⟨trace_withProgram ws s, run_withProgram ws s⟩

/-- Settles O35: a program's pairs of command and result are the map of `w ↦ (w, F(w))` over it, and mapping keeps a
permutation. -/
theorem reorderedProgramHasReorderedResults : Obligations.ReorderedProgramHasReorderedResults := by
  intro ws ws' s s' hperm
  rw [trace_withProgram, trace_withProgram, ← List.map_prod_left_eq_zip, ← List.map_prod_left_eq_zip]
  exact hperm.map _

end Sys2Proof.Machine
end

section
/-! SUPPORT. What the layouts of the stages (R47, R54) say about shifts, about XOR and OR, and about the two closed forms
(R46, R48, R49, R53 to R55). -/

namespace Sys2Proof.Machine

/-! ## A layout is one value -/

/-- Two layouts of the same 32 bits at the same places are the same value. -/
theorem StageLayout.eq {s : Nat} {bit bit' : Nat → Bool} {t t' : Key} (h : StageLayout s bit t)
    (h' : StageLayout s bit' t') (hbit : ∀ i, i < 32 → bit i = bit' i) : t = t' := by
  obtain ⟨hplace, hfree, -⟩ := h
  obtain ⟨hplace', hfree', -⟩ := h'
  apply BitVec.eq_of_getLsbD_eq
  intro q hq
  by_cases hex : ∃ i, i < 32 ∧ q = stagePosition i s
  · obtain ⟨i, hi, rfl⟩ := hex
    rw [hplace i hi, hplace' i hi, hbit i hi]
  · have hnone : ∀ i, i < 32 → q ≠ stagePosition i s := fun i hi hqi => hex ⟨i, hi, hqi⟩
    rw [hfree q hq hnone, hfree' q hq hnone]

/-- Settles O13: each mask's bits, one by one. -/
theorem maskLaw : Obligations.MaskLaw := fun q hq =>
  ⟨mask1_getLsbD q hq, mask2_getLsbD q hq, mask4_getLsbD q hq, mask8_getLsbD q hq, mask16_getLsbD q hq, mask32_getLsbD q hq⟩

/-- Settles O16: each spread stage halves the blocks of the stage before. -/
theorem spreadStageInvariant : Obligations.SpreadStageInvariant := fun v =>
  ⟨spreadT0_layout v, spreadT1_layout v, spreadT2_layout v, spreadT3_layout v, spreadT4_layout v, spreadT5_layout v⟩

/-- Settles O17: each compact stage doubles the blocks of the stage before; on a spread value it then lays out the same bits
as the spread stage with those blocks, so the two values are equal. -/
theorem compactStageInvariantAndMirror : Obligations.CompactStageInvariantAndMirror := by
  constructor
  · exact fun k => ⟨compactU0_layout k, compactU1_layout k, compactU2_layout k, compactU3_layout k, compactU4_layout k,
      compactU5_layout k⟩
  · intro v
    have hbit : ∀ i, i < 32 → (part1by1 v).getLsbD (2 * i) = v.getLsbD i := fun i => part1by1_getLsbD_even v
    exact ⟨(compactU0_layout _).eq (spreadT5_layout v) hbit, (compactU1_layout _).eq (spreadT4_layout v) hbit,
      (compactU2_layout _).eq (spreadT3_layout v) hbit, (compactU3_layout _).eq (spreadT2_layout v) hbit,
      (compactU4_layout _).eq (spreadT1_layout v) hbit, (compactU5_layout _).eq (spreadT0_layout v) hbit⟩

/-! ## Shifts lose no bit (R48, R60) -/

/-- A left shift is undone where the bits it would push out are 0. -/
theorem shiftLeft_ushiftRight_of_high_zero {s : Nat} {t : Key}
    (h : ∀ q, q < 64 → 64 ≤ q + s → t.getLsbD q = false) : (t <<< s) >>> s = t := by
  apply BitVec.eq_of_getLsbD_eq
  intro q hq
  rw [BitVec.getLsbD_ushiftRight, BitVec.getLsbD_shiftLeft, Nat.add_sub_cancel_left]
  by_cases hfits : s + q < 64
  · simp [hfits]
  · rw [h q hq (by omega)]
    simp

/-- The shift of the next spread stage stays below bit 64: the topmost `s` places lie in the upper half of their block. -/
theorem StageLayout.shiftLeft_ushiftRight {s : Nat} {bit : Nat → Bool} {t : Key} (h : StageLayout (2 * s) bit t)
    (hs : 2 * (2 * s) ∣ 64) : (t <<< s) >>> s = t := by
  refine shiftLeft_ushiftRight_of_high_zero fun q hq hout => h.getLsbD_eq_false ?_
  obtain ⟨k, hk⟩ := hs
  have hlt := Nat.mod_lt q (show 0 < 2 * (2 * s) by omega)
  have hdiv := Nat.div_add_mod q (2 * (2 * s))
  have hblock : q / (2 * (2 * s)) < k := Nat.div_lt_of_lt_mul (by omega)
  have hfits : 2 * (2 * s) * (q / (2 * (2 * s)) + 1) ≤ 2 * (2 * s) * k := Nat.mul_le_mul_left _ hblock
  rw [Nat.mul_add] at hfits
  omega

theorem spreadOdd_ushiftRight (y : Coord) : spreadOdd y >>> 1 = part1by1 y := by
  refine shiftLeft_ushiftRight_of_high_zero fun q hq hout => ?_
  rw [show q = 2 * 31 + 1 by omega, part1by1_getLsbD_odd]

/-- Settles O18: each stage's layout leaves the places free that the next shift pushes out, and bit 63 of the spread value
is an odd bit. -/
theorem spreadShiftsLoseNoBit : Obligations.SpreadShiftsLoseNoBit := fun v =>
  ⟨(spreadT0_layout v).shiftLeft_ushiftRight (by decide), (spreadT1_layout v).shiftLeft_ushiftRight (by decide),
    (spreadT2_layout v).shiftLeft_ushiftRight (by decide), (spreadT3_layout v).shiftLeft_ushiftRight (by decide),
    (spreadT4_layout v).shiftLeft_ushiftRight (by decide), part1by1_getLsbD_odd v 31, spreadOdd_ushiftRight v⟩

/-! ## XOR and OR agree (R49, R54) -/

/-- XOR and OR under a mask differ only where both operands have a bit. -/
theorem xor_and_eq_or_and {a b m : Key} (h : ∀ q, q < 64 → m.getLsbD q = true → a.getLsbD q = true → b.getLsbD q = false) :
    (a ^^^ b) &&& m = (a ||| b) &&& m := by
  apply BitVec.eq_of_getLsbD_eq
  intro q hq
  rw [BitVec.getLsbD_and, BitVec.getLsbD_and, BitVec.getLsbD_xor, BitVec.getLsbD_or]
  cases hm : m.getLsbD q
  · rw [Bool.and_false, Bool.and_false]
  · cases ha : a.getLsbD q
    · rw [Bool.false_xor, Bool.false_or]
    · rw [h q hq hm ha, Bool.xor_false, Bool.or_false]

/-- In a spread stage a value and its copy from `s` places below never meet under the mask: the value's bit there would stand
in the first quarter of its block of `4s`, and the copied one in the second or the third. -/
theorem spreadRound_eq_or {s : Nat} {bit : Nat → Bool} {mask t : Key} (h : StageLayout (2 * s) bit t)
    (hmask : ∀ q, q < 64 → mask.getLsbD q = decide (q % (2 * s) < s)) :
    spreadRound s mask t = (t ||| (t <<< s)) &&& mask := by
  refine xor_and_eq_or_and fun q hq hkeep hset => ?_
  rw [hmask q hq, decide_eq_true_iff] at hkeep
  rw [BitVec.getLsbD_shiftLeft, Bool.and_eq_false_imp]
  intro hin
  have hle : s ≤ q := by simpa [hq] using hin
  have hblock : q % (2 * (2 * s)) < 2 * s := Nat.lt_of_not_le fun hge => by
    rw [h.getLsbD_eq_false hge] at hset
    cases hset
  have hquarter : q % (2 * (2 * s)) = q % (2 * s) := by
    rw [← Nat.mod_mod_of_dvd q (Nat.dvd_mul_left (2 * s) 2), Nat.mod_eq_of_lt hblock]
  refine h.getLsbD_eq_false (Nat.le_of_not_lt fun hmod => ?_)
  have hback := add_mod_of_lt (q := q - s) (s := s) (n := 2 * (2 * s)) (by omega)
  rw [Nat.sub_add_cancel hle] at hback
  omega

/-- In a compact stage a value and its copy from `s` places above never meet, whatever the mask: the value's bit stands in
the lower half of its block of `2s`, and the place `s` above it in the upper half, which is empty. -/
theorem compactRound_eq_or {s : Nat} {bit : Nat → Bool} {mask u : Key} (h : StageLayout s bit u) :
    compactRound s mask u = (u ||| (u >>> s)) &&& mask := by
  refine xor_and_eq_or_and fun q _ _ hset => ?_
  have hblock : q % (2 * s) < s := Nat.lt_of_not_le fun hge => by
    rw [h.getLsbD_eq_false hge] at hset
    cases hset
  rw [BitVec.getLsbD_ushiftRight, Nat.add_comm]
  exact h.getLsbD_eq_false (by rw [add_mod_of_lt (by omega)]; omega)

/-- Settles O19: in no stage do the two operands of XOR have a bit in common that the mask keeps. -/
theorem xorAndOrAgreeInEveryStage : Obligations.XorAndOrAgreeInEveryStage :=
  ⟨fun v => ⟨spreadRound_eq_or (spreadT0_layout v) mask16_getLsbD, spreadRound_eq_or (spreadT1_layout v) mask8_getLsbD,
    spreadRound_eq_or (spreadT2_layout v) mask4_getLsbD, spreadRound_eq_or (spreadT3_layout v) mask2_getLsbD,
    spreadRound_eq_or (spreadT4_layout v) mask1_getLsbD⟩,
  fun k => ⟨compactRound_eq_or (compactU0_layout k), compactRound_eq_or (compactU1_layout k),
    compactRound_eq_or (compactU2_layout k), compactRound_eq_or (compactU3_layout k), compactRound_eq_or (compactU4_layout k)⟩⟩

/-! ## The closed forms (R46, R53, R55) -/

theorem mask1_getLsbD_even {i : Nat} (hi : i < 32) : mask1.getLsbD (2 * i) = true := by
  rw [mask1_getLsbD _ (by omega), decide_eq_true_iff]
  omega

@[simp] theorem mask1_getLsbD_odd (i : Nat) : mask1.getLsbD (2 * i + 1) = false := by
  rw [Bool.eq_false_iff]
  intro hset
  rw [mask1_getLsbD _ (BitVec.lt_of_getLsbD hset), decide_eq_true_iff] at hset
  omega

theorem oddMask_getLsbD : ∀ i, i < 32 → (0xAAAAAAAAAAAAAAAA#64).getLsbD (2 * i + 1) = true := by decide

/-- Settles O14: bit by bit; a value with no odd bits and `v`'s bits on its even ones has every bit of `part1by1 v`. -/
theorem spreadClosedForm : Obligations.SpreadClosedForm := by
  refine fun v => ⟨fun i hi => ⟨part1by1_getLsbD_even v hi, part1by1_getLsbD_odd v i⟩, fun k hodd heven => ?_⟩
  apply key_ext <;> intro i hi
  · rw [heven i hi, part1by1_getLsbD_even v hi]
  · have hbit := congrArg (BitVec.getLsbD · (2 * i + 1)) hodd
    rw [BitVec.getLsbD_and, oddMask_getLsbD i hi, Bool.and_true, BitVec.getLsbD_zero] at hbit
    rw [hbit, part1by1_getLsbD_odd]

/-- The compactor reads its operand through `MASK_1` (R52). -/
theorem compact1by1_congr {k k' : Key} (h : k &&& mask1 = k' &&& mask1) : compact1by1 k = compact1by1 k' := by
  apply BitVec.eq_of_getLsbD_eq
  intro i hi
  have hbit := congrArg (BitVec.getLsbD · (2 * i)) h
  rw [BitVec.getLsbD_and, BitVec.getLsbD_and, mask1_getLsbD_even hi, Bool.and_true, Bool.and_true] at hbit
  rw [compact1by1_getLsbD k hi, compact1by1_getLsbD k' hi, hbit]

/-- Settles O15: each bit of the result is an even bit of the operand. -/
theorem compactClosedForm : Obligations.CompactClosedForm :=
  fun k => ⟨fun _ => compact1by1_getLsbD k, fun _ => compact1by1_congr⟩

@[simp] theorem compact1by1_part1by1 (v : Coord) : compact1by1 (part1by1 v) = v := by
  apply BitVec.eq_of_getLsbD_eq
  intro i hi
  rw [compact1by1_getLsbD _ hi, part1by1_getLsbD_even v hi]

theorem part1by1_compact1by1 (k : Key) : part1by1 (compact1by1 k) = k &&& mask1 := by
  apply key_ext <;> intro i hi
  · rw [part1by1_getLsbD_even _ hi, compact1by1_getLsbD k hi, BitVec.getLsbD_and, mask1_getLsbD_even hi, Bool.and_true]
  · rw [part1by1_getLsbD_odd, BitVec.getLsbD_and, mask1_getLsbD_odd, Bool.and_false]

/-- Settles O20: the bits that one moves the other moves back, and the compactor drops the odd ones. -/
theorem spreaderAndCompactorAreInverse : Obligations.SpreaderAndCompactorAreInverse :=
  ⟨compact1by1_part1by1, part1by1_compact1by1⟩

end Sys2Proof.Machine
end

section
/-! SUPPORT. The laws of ENCODE and DECODE, from the places of the bits (R58, R60 to R66). -/

namespace Sys2Proof.Machine

/-! ## Each bit of the result is a wire -/

/-- The bit of `din` that bit `q` of the result is a wire from: ENCODE takes `x[i]` and `y[i]` in turn, DECODE the even bits
and then the odd ones. -/
def wireSource (op : BitVec 1) (q : Nat) : Nat := if op = 0#1 then 32 * (q % 2) + q / 2 else 2 * (q % 32) + q / 32

@[simp] theorem wireSource_zero (q : Nat) : wireSource 0#1 q = 32 * (q % 2) + q / 2 := rfl
@[simp] theorem wireSource_one (q : Nat) : wireSource 1#1 q = 2 * (q % 32) + q / 32 := rfl

@[simp] theorem blockF_zero (din : Key) : blockF 0#1 din = encodeDin din := rfl
@[simp] theorem blockF_one (din : Key) : blockF 1#1 din = decodeDin din := rfl

theorem wireSource_lt (op : BitVec 1) {q : Nat} (hq : q < 64) : wireSource op q < 64 := by
  rcases BitVec.eq_zero_or_eq_one op with rfl | rfl
  · rw [wireSource_zero]; omega
  · rw [wireSource_one]; omega

/-- The wires of the two operations run the same places in opposite directions. -/
theorem wireSource_wireSource_not (op : BitVec 1) {q : Nat} (hq : q < 64) : wireSource op (wireSource (~~~op) q) = q := by
  rcases BitVec.eq_zero_or_eq_one op with rfl | rfl
  · rw [show ~~~(0#1) = 1#1 by decide, wireSource_zero, wireSource_one]; omega
  · rw [show ~~~(1#1) = 0#1 by decide, wireSource_zero, wireSource_one]; omega

theorem wireSource_not_wireSource (op : BitVec 1) {q : Nat} (hq : q < 64) : wireSource (~~~op) (wireSource op q) = q := by
  have hback := wireSource_wireSource_not (~~~op) hq
  rwa [BitVec.not_not] at hback

theorem encodeDin_getLsbD_even (din : Key) {i : Nat} (hi : i < 32) : (encodeDin din).getLsbD (2 * i) = din.getLsbD i := by
  rw [encodeDin, interleave_getLsbD_even _ _ hi, BitVec.getLsbD_extractLsb', decide_eq_true hi, Bool.true_and, Nat.zero_add]

theorem encodeDin_getLsbD_odd (din : Key) {i : Nat} (hi : i < 32) :
    (encodeDin din).getLsbD (2 * i + 1) = din.getLsbD (32 + i) := by
  rw [encodeDin, interleave_getLsbD_odd _ _ hi, BitVec.getLsbD_extractLsb', decide_eq_true hi, Bool.true_and]

theorem decodeDin_getLsbD_low (din : Key) {i : Nat} (hi : i < 32) : (decodeDin din).getLsbD i = din.getLsbD (2 * i) := by
  rw [decodeDin, packPair_getLsbD, if_pos hi, evenBits_getLsbD din hi]

theorem decodeDin_getLsbD_high (din : Key) {i : Nat} (hi : i < 32) :
    (decodeDin din).getLsbD (32 + i) = din.getLsbD (2 * i + 1) := by
  rw [decodeDin, packPair_getLsbD, if_neg (by omega), Nat.add_sub_cancel_left, oddBits_getLsbD din hi]

/-- Every bit of the result is the bit of `din` at the other end of its wire. -/
theorem blockF_getLsbD (op : BitVec 1) (din : Key) {q : Nat} (hq : q < 64) :
    (blockF op din).getLsbD q = din.getLsbD (wireSource op q) := by
  rcases BitVec.eq_zero_or_eq_one op with rfl | rfl
  · rw [blockF_zero, wireSource_zero]
    obtain ⟨i, rfl | rfl⟩ := Nat.even_or_odd' q
    · rw [encodeDin_getLsbD_even din (by omega), show 32 * (2 * i % 2) + 2 * i / 2 = i by omega]
    · rw [encodeDin_getLsbD_odd din (by omega), show 32 * ((2 * i + 1) % 2) + (2 * i + 1) / 2 = 32 + i by omega]
  · rw [blockF_one, wireSource_one]
    by_cases hlow : q < 32
    · rw [decodeDin_getLsbD_low din hlow, show 2 * (q % 32) + q / 32 = 2 * q by omega]
    · obtain ⟨i, rfl⟩ := Nat.exists_eq_add_of_le (Nat.le_of_not_lt hlow)
      rw [decodeDin_getLsbD_high din (by omega), show 2 * ((32 + i) % 32) + (32 + i) / 32 = 2 * i + 1 by omega]

/-- The word with one set bit. -/
theorem one_shiftLeft_getLsbD {w j q : Nat} (hq : q < w) : (1#w <<< j).getLsbD q = decide (q = j) := by
  rw [← BitVec.twoPow_eq, BitVec.getLsbD_twoPow]
  by_cases h : q = j
  · simp [← h, hq]
  · simp [h, Ne.symm h]

/-- Turning over the bit at one end of a wire turns over the bit at its other end and no other. -/
theorem blockF_xor_one_shiftLeft (op : BitVec 1) (din : Key) {q : Nat} (hq : q < 64) :
    blockF op (din ^^^ (1#64 <<< wireSource op q)) = blockF op din ^^^ (1#64 <<< q) := by
  apply BitVec.eq_of_getLsbD_eq
  intro p hp
  have hends : wireSource op p = wireSource op q ↔ p = q := by
    refine ⟨fun h => ?_, congrArg _⟩
    have hback := congrArg (wireSource (~~~op)) h
    rwa [wireSource_not_wireSource op hp, wireSource_not_wireSource op hq] at hback
  rw [blockF_getLsbD op _ hp, BitVec.getLsbD_xor, BitVec.getLsbD_xor, blockF_getLsbD op din hp,
    one_shiftLeft_getLsbD (wireSource_lt op hp), one_shiftLeft_getLsbD hp, decide_eq_decide.2 hends]

/-- Settles O12: the wire that starts at bit `j` of `din` ends where the other operation's wire to `j` starts. -/
theorem eachOperandBitDrivesOneResultBit : Obligations.EachOperandBitDrivesOneResultBit := by
  refine ⟨fun din i hi => ?_, fun op j hj => ?_⟩
  · exact ⟨encodeDin_getLsbD_even din hi, encodeDin_getLsbD_odd din hi, decodeDin_getLsbD_low din hi,
      decodeDin_getLsbD_high din hi⟩
  · refine ⟨wireSource (~~~op) j, wireSource_lt _ hj, fun din => ?_⟩
    have hflip := blockF_xor_one_shiftLeft op din (wireSource_lt (~~~op) hj)
    rwa [wireSource_wireSource_not op hj] at hflip

/-! ## The operations undo each other (R65, R66) -/

/-- Each operation undoes the other: its wires lead back. -/
theorem blockF_blockF_not (op : BitVec 1) (din : Key) : blockF op (blockF (~~~op) din) = din := by
  apply BitVec.eq_of_getLsbD_eq
  intro q hq
  rw [blockF_getLsbD op _ hq, blockF_getLsbD _ din (wireSource_lt op hq), wireSource_not_wireSource op hq]

@[simp] theorem decodeDin_encodeDin (din : Key) : decodeDin (encodeDin din) = din := blockF_blockF_not 1#1 din
@[simp] theorem encodeDin_decodeDin (din : Key) : encodeDin (decodeDin din) = din := blockF_blockF_not 0#1 din

@[simp] theorem evenBits_interleave (x y : Coord) : evenBits (interleave x y) = x := by
  apply BitVec.eq_of_getLsbD_eq
  intro i hi
  rw [evenBits_getLsbD _ hi, interleave_getLsbD_even x y hi]

@[simp] theorem oddBits_interleave (x y : Coord) : oddBits (interleave x y) = y := by
  apply BitVec.eq_of_getLsbD_eq
  intro i hi
  rw [oddBits_getLsbD _ hi, interleave_getLsbD_odd x y hi]

@[simp] theorem interleave_evenBits_oddBits (key : Key) : interleave (evenBits key) (oddBits key) = key := by
  rw [← encodeDin_packPair]
  exact encodeDin_decodeDin key

/-- Settles O26: the pair is the even and the odd bits of the key, and they are what any pair with that key is. -/
theorem everyKeyHasExactlyOnePair : Obligations.EveryKeyHasExactlyOnePair := by
  refine fun key => ⟨(evenBits key, oddBits key), interleave_evenBits_oddBits key, ?_⟩
  rintro ⟨x, y⟩ rfl
  rw [evenBits_interleave, oddBits_interleave]

/-- A command and then another one on the result that the integrator sampled. -/
theorem trace_two_sampledDout (s : State) (op op' : BitVec 1) (din : Key) :
    trace 2 { s with pending := [Presentation.ofWord (command op din), ⟨.bits op', .sampledDout⟩] } =
      [blockF op din, blockF op' (blockF op din)] := by
  have hfirst := step_pending_cons s (Presentation.ofWord (command op din)) [⟨.bits op', .sampledDout⟩]
    (wordInputs_word (command op din))
  have hsecond := step_sampledDout ⟨wordInputs (command op din), blockF op din, []⟩ op' []
  rw [blockWord_command] at hfirst
  exact (trace_next 1 hfirst).trans (congrArg _ (trace_next 0 hsecond))

/-- Settles O27: the second command runs on the first one's result, and undoes it. -/
theorem otherOperationOnSampledResultGivesOperandBack : Obligations.OtherOperationOnSampledResultGivesOperandBack := by
  refine fun s d => ⟨?_, ?_⟩
  · rw [trace_two_sampledDout, blockF_one, blockF_zero, decodeDin_encodeDin]
  · rw [trace_two_sampledDout, blockF_one, blockF_zero, encodeDin_decodeDin]

/-! ## The addition (R60) -/

/-- The sum, the OR and the XOR of disjoint operands agree bit by bit. -/
theorem interleave_eq_xor (x y : Coord) : interleave x y = spreadOdd y ^^^ spreadEven x := by
  rw [interleave_eq_or]
  apply key_ext <;> intro i hi
  · rw [BitVec.getLsbD_or, BitVec.getLsbD_xor, spreadOdd_getLsbD_even y hi, Bool.false_or, Bool.false_xor]
  · rw [BitVec.getLsbD_or, BitVec.getLsbD_xor, spreadEven, part1by1_getLsbD_odd, Bool.or_false, Bool.xor_false]

/-- Settles O21: one operand has no even bits and the other no odd ones. -/
theorem encodeAdditionNeverCarries : Obligations.EncodeAdditionNeverCarries := fun x y =>
  ⟨spreadOdd_and_spreadEven x y, fun _ _ => BitVec.carry_of_and_eq_zero (spreadOdd_and_spreadEven x y),
    interleave_eq_or x y, interleave_eq_xor x y⟩

/-! ## The laws of R61 and R62 -/

/-- A key is known from the bits of its two coordinates. -/
theorem interleave_eq_of_bits {x y : Coord} {key : Key} (hx : ∀ i, i < 32 → key.getLsbD (2 * i) = x.getLsbD i)
    (hy : ∀ i, i < 32 → key.getLsbD (2 * i + 1) = y.getLsbD i) : interleave x y = key := by
  apply key_ext <;> intro i hi
  · rw [interleave_getLsbD_even x y hi, hx i hi]
  · rw [interleave_getLsbD_odd x y hi, hy i hi]

theorem interleave_one_shiftLeft_zero {k : Nat} : interleave (1#32 <<< k) 0#32 = 1#64 <<< (2 * k) := by
  refine interleave_eq_of_bits (fun i hi => ?_) fun i hi => ?_
  · rw [one_shiftLeft_getLsbD (by omega), one_shiftLeft_getLsbD hi, decide_eq_decide]
    omega
  · rw [one_shiftLeft_getLsbD (by omega), BitVec.getLsbD_zero, decide_eq_false_iff_not]
    omega

theorem interleave_zero_one_shiftLeft {k : Nat} : interleave 0#32 (1#32 <<< k) = 1#64 <<< (2 * k + 1) := by
  refine interleave_eq_of_bits (fun i hi => ?_) fun i hi => ?_
  · rw [one_shiftLeft_getLsbD (by omega), BitVec.getLsbD_zero, decide_eq_false_iff_not]
    omega
  · rw [one_shiftLeft_getLsbD (by omega), one_shiftLeft_getLsbD hi, decide_eq_decide]
    omega

/-- Settles O22: bit `k` of `x` is bit `2k` of the key and bit `k` of `y` is bit `2k + 1`, and no other bit is set. -/
theorem bitIsolation : Obligations.BitIsolation := by
  refine fun s k _ => ⟨?_, ?_⟩
  · rw [exec_encode, interleave_one_shiftLeft_zero]
    rfl
  · rw [exec_encode, interleave_zero_one_shiftLeft]
    rfl

theorem interleave_separable (x y : Coord) : interleave x y = interleave x 0#32 ||| interleave 0#32 y := by
  refine interleave_eq_of_bits (fun i hi => ?_) fun i hi => ?_
  · rw [BitVec.getLsbD_or, interleave_getLsbD_even _ _ hi, interleave_getLsbD_even _ _ hi, BitVec.getLsbD_zero, Bool.or_false]
  · rw [BitVec.getLsbD_or, interleave_getLsbD_odd _ _ hi, interleave_getLsbD_odd _ _ hi, BitVec.getLsbD_zero, Bool.false_or]

/-- The sum of twice a value and the value. -/
theorem interleave_self (x : Coord) : interleave x x = part1by1 x * 3#64 := by
  rw [interleave, spreadOdd, spreadEven]
  bv_omega

/-- Settles O23: bit by bit; and `2p + p = 3p` for equal coordinates. -/
theorem encodeIsSeparable : Obligations.EncodeIsSeparable := ⟨interleave_separable, interleave_self⟩

/-! ## The order of keys -/

/-- A smaller number first differs from a greater one, from the top, in a bit that the greater one has. -/
theorem exists_top_differing_bit {a b : Nat} (h : a < b) :
    ∃ i, a.testBit i = false ∧ b.testBit i = true ∧ ∀ j, i < j → a.testBit j = b.testBit j := by
  obtain ⟨i, hi, hagree⟩ := Nat.exists_most_significant_bit (n := a ^^^ b) (by simpa using Nat.ne_of_lt h)
  have heq : ∀ j, i < j → a.testBit j = b.testBit j := fun j hj => by
    simpa using hagree j hj
  rw [Nat.testBit_xor] at hi
  cases ha : a.testBit i
  · exact ⟨i, ha, by simpa [ha] using hi, heq⟩
  · have hb : b.testBit i = false := by simpa [ha] using hi
    exact absurd (Nat.lt_of_testBit i hb ha fun j hj => (heq j hj).symm) (by omega)

/-- Two keys are in the order of the topmost bit in which they differ. -/
theorem key_lt_of_bits {a b : Key} {i : Nat} (ha : a.getLsbD i = false) (hb : b.getLsbD i = true)
    (hagree : ∀ j, i < j → j < 64 → a.getLsbD j = b.getLsbD j) : a.toNat < b.toNat := by
  refine Nat.lt_of_testBit i ha hb fun j hj => ?_
  by_cases hj64 : j < 64
  · exact hagree j hj hj64
  · rw [BitVec.testBit_toNat, BitVec.testBit_toNat, BitVec.getLsbD_of_ge a j (by omega), BitVec.getLsbD_of_ge b j (by omega)]

/-- The spreader keeps the order: bit `i` of the coordinate becomes bit `2i`. -/
theorem part1by1_lt {v v' : Coord} (h : v.toNat < v'.toNat) : (part1by1 v).toNat < (part1by1 v').toNat := by
  obtain ⟨i, hv, hv', hagree⟩ := exists_top_differing_bit h
  have hi : i < 32 := BitVec.lt_of_getLsbD hv'
  refine key_lt_of_bits (i := 2 * i) ((part1by1_getLsbD_even v hi).trans hv) ((part1by1_getLsbD_even v' hi).trans hv')
    fun q hq hq64 => ?_
  obtain ⟨j, rfl | rfl⟩ := Nat.even_or_odd' q
  · rw [part1by1_getLsbD_even v (by omega), part1by1_getLsbD_even v' (by omega)]
    exact hagree j (by omega)
  · rw [part1by1_getLsbD_odd, part1by1_getLsbD_odd]

theorem part1by1_le (v : Coord) : (part1by1 v).toNat ≤ 0x5555555555555555 := by
  have hmask := part1by1_compact1by1 (part1by1 v)
  rw [compact1by1_part1by1] at hmask
  rw [hmask, BitVec.toNat_and]
  exact Nat.and_le_right

/-- The key as a number: the sum does not wrap. -/
theorem interleave_toNat (x y : Coord) : (interleave x y).toNat = 2 * (part1by1 y).toNat + (part1by1 x).toNat := by
  have hx := part1by1_le x
  have hy := part1by1_le y
  rw [interleave, spreadOdd, spreadEven]
  bv_omega

/-- Settles O24: a key is a sum that grows with each spread coordinate, and the spreader keeps the order. -/
theorem encodeIsMonotoneInEachCoordinate : Obligations.EncodeIsMonotoneInEachCoordinate := by
  refine ⟨fun x1 x2 y h => ?_, fun x y1 y2 h => ?_⟩
  · have hspread := part1by1_lt h
    rw [interleave_toNat, interleave_toNat]
    omega
  · have hspread := part1by1_lt h
    rw [interleave_toNat, interleave_toNat]
    omega

/-! ## The quad tree -/

/-- Halving both coordinates moves each bit pair of the key down by one pair. -/
theorem interleave_ushiftRight_one (x y : Coord) : interleave (x >>> 1) (y >>> 1) = interleave x y >>> 2 := by
  refine interleave_eq_of_bits (fun i hi => ?_) fun i hi => ?_
  · rw [BitVec.getLsbD_ushiftRight, BitVec.getLsbD_ushiftRight, show 2 + 2 * i = 2 * (1 + i) by omega]
    by_cases hin : 1 + i < 32
    · exact interleave_getLsbD_even x y hin
    · rw [BitVec.getLsbD_of_ge _ _ (by omega), BitVec.getLsbD_of_ge _ _ (by omega)]
  · rw [BitVec.getLsbD_ushiftRight, BitVec.getLsbD_ushiftRight, show 2 + (2 * i + 1) = 2 * (1 + i) + 1 by omega]
    by_cases hin : 1 + i < 32
    · exact interleave_getLsbD_odd x y hin
    · rw [BitVec.getLsbD_of_ge _ _ (by omega), BitVec.getLsbD_of_ge _ _ (by omega)]

/-- The last bit pair of a key. -/
theorem interleave_and_three (x y : Coord) :
    interleave x y &&& 3#64 = (((y.extractLsb' 0 1).setWidth 64 <<< 1) ||| (x.extractLsb' 0 1).setWidth 64) := by
  have hthree : ∀ q, q < 64 → (3#64).getLsbD q = decide (q < 2) := by decide
  apply key_ext <;> intro i hi
  · rw [BitVec.getLsbD_and, interleave_getLsbD_even x y hi, hthree _ (by omega)]
    rcases i with _ | i
    · simp
    · simp [show ¬ 2 * (i + 1) ≤ 1 by omega, show 2 * (i + 1) - 1 ≠ 0 by omega]
  · rw [BitVec.getLsbD_and, interleave_getLsbD_odd x y hi, hthree _ (by omega)]
    rcases i with _ | i <;> simp

/-- Settles O25: the bit pairs of the key above the last one are those of the halved coordinates. -/
theorem quadTreeParentAndQuadrant : Obligations.QuadTreeParentAndQuadrant :=
  fun x y => ⟨interleave_ushiftRight_one x y, interleave_and_three x y⟩

end Sys2Proof.Machine
end

section
/-! SUPPORT. `dout` over time, and what the samples of a schedule are (R82, R84). -/

namespace Sys2Proof.Machine

/-! ## `dout` at a time -/

/-- Inputs that have been stable and 2-state for `T_PD` after power is good give their result. -/
theorem doutAt_settled {cfg : Config} {powerGood time : Nat} {w : List InputEvent} {st : StableInputs} {cmd : CommandWord}
    (u : Nat → Key) (hst : stableInputs (eventsUpTo w time) = some st) (hword : st.inputs.word = .ok cmd)
    (htime : max powerGood st.since + cfg.tPD ≤ time) : doutAt cfg u powerGood w time = blockWord cmd := by
  simp [doutAt, hst, hword, htime]

/-- Before that `dout` is unsettled. -/
theorem doutAt_unsettled {cfg : Config} {powerGood time : Nat} {w : List InputEvent} (u : Nat → Key)
    (h : ∀ st cmd, stableInputs (eventsUpTo w time) = some st → st.inputs.word = .ok cmd →
      time < max powerGood st.since + cfg.tPD) : doutAt cfg u powerGood w time = u time := by
  unfold doutAt
  split
  · rfl
  · rename_i st hst
    split
    · rfl
    · rename_i cmd hword
      exact if_neg (Nat.not_le.2 (h st cmd hst hword))

/-- Settles O32: presenting leaves nothing of the state before, and settled inputs give their result. -/
theorem doutDependsOnCurrentInputsOnly : Obligations.DoutDependsOnCurrentInputsOnly := by
  refine ⟨fun s s' rest rest' op din => ?_, fun cfg u powerGood time w st op din hst hinputs htime => ?_⟩
  · exact ⟨_, _, step_driven s op din rest, step_driven s' op din rest', rfl, rfl⟩
  · have hword : st.inputs.word = .ok (command op din) := by rw [hinputs, Inputs.word_bits]
    exact (doutAt_settled u hst hword htime).trans (blockWord_command op din)

/-- Settles O40: the unsettled behaviour may show any value before, and shows nowhere from the settling time on. -/
theorem powerUpThenSettled : Obligations.PowerUpThenSettled := by
  refine ⟨fun cfg powerGood time w hbefore v => ?_, fun cfg u powerGood time w st cmd hst hword htime => ?_, fun w s => ?_⟩
  · exact ⟨fun _ => v, doutAt_unsettled _ hbefore⟩
  · exact doutAt_settled u hst hword htime
  · exact ⟨_, _, step_withProgram_cons State.reset w [], step_withProgram_cons s w [], rfl, rfl⟩

/-! ## Samples -/

/-- A slot that keeps the settling rule samples the result of its command. -/
theorem doutAt_of_slotKeepsSettling {cfg : Config} {powerGood : Nat} {done : List Slot} {a : Slot} {later : List Slot}
    (u : Nat → Key) (h : slotKeepsSettling cfg powerGood done a later = true) :
    doutAt cfg u powerGood (eventsAtSample done a later) a.sample = blockWord a.word := by
  obtain ⟨st, hst, hinputs, -, -, htime⟩ := slotKeepsSettling_iff.1 h
  exact doutAt_settled u hst (by rw [hinputs, wordInputs_word]) htime

theorem samplesAfter_of_keepsSettlingAfter {cfg : Config} {powerGood : Nat} {done slots : List Slot} (u : Nat → Key)
    (h : keepsSettlingAfter cfg powerGood done slots = true) :
    samplesAfter cfg u powerGood done slots = slots.map (fun a => blockWord a.word) := by
  induction slots generalizing done with
  | nil => rfl
  | cons a later ih =>
    obtain ⟨hslot, -, hlater⟩ := keepsSettlingAfter_cons.1 h
    rw [samplesAfter, doutAt_of_slotKeepsSettling u hslot, ih hlater, List.map_cons]

/-- Settles O41: slot by slot both are the result of the slot's command. -/
theorem settledSamplesAreTheMachinesResults : Obligations.SettledSamplesAreTheMachinesResults := by
  intro cfg u powerGood slots s h
  have htrace := trace_withProgram (slots.map (fun a => a.word)) s
  rw [List.length_map, List.map_map] at htrace
  rw [htrace]
  exact samplesAfter_of_keepsSettlingAfter u h

/-- A bound on the presentations of a schedule, one slot longer. -/
theorem present_le_concat {slots : List Slot} {a : Slot} {t : Nat} (hslots : ∀ b ∈ slots, b.present ≤ t)
    (ha : a.present ≤ t) : ∀ b ∈ slots ++ [a], b.present ≤ t := by
  intro b hb
  rcases List.mem_append.1 hb with hb | hb
  · exact hslots b hb
  · rwa [List.mem_singleton.1 hb]

/-! ## The synchronous case -/

theorem clockedSlots_present_ge {period clockToOut setup edge : Nat} {ws : List CommandWord} {b : Slot}
    (h : b ∈ clockedSlots period clockToOut setup edge ws) : edge * period + clockToOut ≤ b.present := by
  induction ws generalizing edge with
  | nil => cases h
  | cons w ws ih =>
    rw [clockedSlots, List.mem_cons] at h
    rcases h with rfl | h
    · exact le_rfl
    · have hnext := ih h
      rw [Nat.succ_mul] at hnext
      omega

/-- Each clocked command is presented no earlier than the ones before it are sampled, and waits `T_PD` after its own
presentation. -/
theorem keepsSettlingAfter_clockedSlots {cfg : Config} {powerGood period clockToOut setup : Nat}
    (hperiod : cfg.tPD + clockToOut + setup ≤ period) {edge : Nat} (hpower : powerGood ≤ edge * period + clockToOut)
    {done : List Slot} (hdone : ∀ b ∈ done, b.present ≤ edge * period + clockToOut) (ws : List CommandWord) :
    keepsSettlingAfter cfg powerGood done (clockedSlots period clockToOut setup edge ws) = true := by
  induction ws generalizing edge done with
  | nil => rfl
  | cons w ws ih =>
    have hnext : (edge + 1) * period = edge * period + period := Nat.succ_mul edge period
    have hlater : ∀ b ∈ clockedSlots period clockToOut setup (edge + 1) ws, (edge + 1) * period + clockToOut ≤ b.present :=
      fun b => clockedSlots_present_ge
    refine keepsSettlingAfter_cons.2 ⟨slotKeepsSettling_of_separate hdone (fun b hb => ?_) ?_, fun b hb => ?_, ih ?_ ?_⟩
    · have hpresent := hlater b hb
      dsimp only
      omega
    · rw [max_eq_right hpower, hnext]
      dsimp only
      omega
    · have hpresent := hlater b hb
      dsimp only
      omega
    · omega
    · exact present_le_concat (fun b hb => (hdone b hb).trans (by omega)) (by dsimp only; omega)

/-- Settles O42: by induction over the commands, from the first edge on. -/
theorem longEnoughClockKeepsSettling : Obligations.LongEnoughClockKeepsSettling :=
  fun _ _ _ _ _ _ ws hpower hperiod => keepsSettlingAfter_clockedSlots hperiod hpower (by simp) ws

/-! ## The wait counts from the last input change -/

/-- A schedule keeps the rule when it is in order and each of its slots does. -/
theorem keepsSettlingAfter_iff {cfg : Config} {powerGood : Nat} {done slots : List Slot} :
    keepsSettlingAfter cfg powerGood done slots = true ↔
      slots.Pairwise (fun a b => a.present ≤ b.present) ∧
      ∀ before a later, slots = before ++ a :: later → slotKeepsSettling cfg powerGood (done ++ before) a later = true := by
  induction slots generalizing done with
  | nil => simp [keepsSettlingAfter]
  | cons a later ih =>
    rw [keepsSettlingAfter_cons, ih, List.pairwise_cons]
    constructor
    · rintro ⟨hslot, hfirst, horder, hlater⟩
      refine ⟨⟨hfirst, horder⟩, fun before b rest hsplit => ?_⟩
      rcases List.cons_eq_append_iff.1 hsplit with ⟨rfl, hhead⟩ | ⟨before', rfl, htail⟩
      · cases hhead
        rw [List.append_nil]
        exact hslot
      · rw [List.append_cons]
        exact hlater before' b rest htail
    · rintro ⟨⟨hfirst, horder⟩, hall⟩
      refine ⟨?_, hfirst, horder, fun before b rest hsplit => ?_⟩
      · simpa using hall [] a later rfl
      · rw [List.append_assoc]
        exact hall (a :: before) b rest (by rw [hsplit, List.cons_append])

theorem keepsSettling_iff {cfg : Config} {powerGood : Nat} {slots : List Slot} :
    keepsSettling cfg powerGood slots = true ↔
      slots.Pairwise (fun a b => a.present ≤ b.present) ∧
      ∀ done a later, slots = done ++ a :: later → slotKeepsSettling cfg powerGood done a later = true := by
  rw [keepsSettling, keepsSettlingAfter_iff]
  rfl

/-- The last slot of a schedule in order sees everything that was presented. -/
theorem eventsUpTo_eventsAtSample_last {done : List Slot} {a : Slot} (hdone : ∀ b ∈ done, b.present ≤ a.present)
    (ha : a.present ≤ a.sample) :
    eventsUpTo (eventsAtSample done a []) a.sample = ⟨a.present, wordInputs a.word⟩ :: scheduleEvents done := by
  rw [eventsAtSample_of_later (by simp)]
  refine eventsUpTo_of_le fun e he => ?_
  rcases List.mem_cons.1 he with rfl | he
  · exact ha
  · obtain ⟨b, hb, rfl⟩ := mem_scheduleEvents.1 he
    exact (hdone b hb).trans ha

/-- What the last slot of a schedule presents is the newest event of every sample that comes after it. -/
theorem eventsAtSample_concat (done : List Slot) (b : Slot) (later : List Slot) (a : Slot) :
    eventsAtSample done b (later ++ [a]) =
      if a.present < b.sample then ⟨a.present, wordInputs a.word⟩ :: eventsAtSample done b later
      else eventsAtSample done b later := by
  by_cases h : a.present < b.sample <;> simp [eventsAtSample, scheduleEvents, h]

theorem eventsUpTo_cons_of_le {e : InputEvent} {t : Nat} (h : e.time ≤ t) (w : List InputEvent) :
    eventsUpTo (e :: w) t = e :: eventsUpTo w t := by
  simp [eventsUpTo, h]

theorem scheduleEvents_concat (slots : List Slot) (a : Slot) :
    scheduleEvents (slots ++ [a]) = ⟨a.present, wordInputs a.word⟩ :: scheduleEvents slots := by
  simp [scheduleEvents]

/-- A sample after the last slot `a` has presented sees `a`'s command as the newest. -/
theorem eventsAtSample_newest {slots done later : List Slot} {a b : Slot} (hsplit : slots ++ [a] = done ++ b :: later)
    (h : a.present < b.sample) :
    ∃ older, eventsAtSample done b later = ⟨a.present, wordInputs a.word⟩ :: older := by
  rcases List.eq_nil_or_concat' later with rfl | ⟨later', c, rfl⟩
  · obtain ⟨-, hab⟩ := List.append_inj' hsplit rfl
    cases hab
    exact ⟨_, eventsAtSample_of_later (by simp)⟩
  · rw [← List.cons_append, ← List.append_assoc] at hsplit
    obtain ⟨-, hac⟩ := List.append_inj' hsplit rfl
    cases hac
    rw [eventsAtSample_concat, if_pos h]
    exact ⟨_, rfl⟩

/-- Presenting the last command once more disturbs no slot before. -/
theorem slotKeepsSettling_concat_repeat {cfg : Config} {powerGood : Nat} {slots done later : List Slot} {a b : Slot}
    (hsplit : slots ++ [a] = done ++ b :: later) {present : Nat} (hpresent : a.present ≤ present) (sample : Nat)
    (h : slotKeepsSettling cfg powerGood done b later = true) :
    slotKeepsSettling cfg powerGood done b (later ++ [⟨a.word, present, sample⟩]) = true := by
  obtain ⟨st, hst, hrest⟩ := slotKeepsSettling_iff.1 h
  refine slotKeepsSettling_iff.2 ⟨st, ?_, hrest⟩
  rw [eventsAtSample_concat]
  split
  · rename_i hbefore
    dsimp only at hbefore
    obtain ⟨older, holder⟩ := eventsAtSample_newest hsplit (show a.present < b.sample by omega)
    rw [eventsUpTo_cons_of_le (by dsimp only; omega)]
    have hnewest := hst
    rw [holder, eventsUpTo_cons_of_le (by dsimp only; omega)] at hnewest
    have hinputs : st.inputs = wordInputs a.word := stableInputs_inputs hnewest
    exact stableInputs_repeat hst hinputs
  · exact hst

/-- The repeated command itself needs no wait of its own. -/
theorem slotKeepsSettling_repeat {cfg : Config} {powerGood : Nat} {slots : List Slot} {a : Slot}
    (horder : ∀ b ∈ slots, b.present ≤ a.present) {present sample : Nat} (hpresent : a.present ≤ present)
    (hsample : present ≤ sample) (hlate : a.sample ≤ sample) (h : slotKeepsSettling cfg powerGood slots a [] = true) :
    slotKeepsSettling cfg powerGood (slots ++ [a]) ⟨a.word, present, sample⟩ [] = true := by
  obtain ⟨st, hst, hinputs, hsince, hheld, htime⟩ := slotKeepsSettling_iff.1 h
  rw [eventsUpTo_eventsAtSample_last horder hheld] at hst
  have horder' : ∀ b ∈ slots ++ [a], b.present ≤ present :=
    present_le_concat (fun b hb => (horder b hb).trans hpresent) hpresent
  refine slotKeepsSettling_iff.2 ⟨st, ?_, hinputs, hsince.trans hpresent, hsample, htime.trans hlate⟩
  rw [eventsUpTo_eventsAtSample_last horder' hsample, scheduleEvents_concat]
  exact stableInputs_repeat hst hinputs

/-- In order, the slots before the last are presented no later than it. -/
theorem present_le_last {slots : List Slot} {a : Slot}
    (h : (slots ++ [a]).Pairwise (fun b c => b.present ≤ c.present)) : ∀ b ∈ slots, b.present ≤ a.present := by
  obtain ⟨-, -, hacross⟩ := List.pairwise_append.1 h
  exact fun b hb => hacross b hb a (List.mem_singleton_self a)

theorem keepsSettling_repeat {cfg : Config} {powerGood : Nat} {slots : List Slot} {a : Slot} {present sample : Nat}
    (h : keepsSettling cfg powerGood (slots ++ [a]) = true) (hpresent : a.present ≤ present) (hsample : present ≤ sample)
    (hlate : a.sample ≤ sample) : keepsSettling cfg powerGood (slots ++ [a, ⟨a.word, present, sample⟩]) = true := by
  obtain ⟨horder, hslots⟩ := keepsSettling_iff.1 h
  have hlast := present_le_last horder
  rw [List.append_cons]
  refine keepsSettling_iff.2 ⟨List.pairwise_append.2 ⟨horder, List.pairwise_singleton _ _, ?_⟩, fun done b later hsplit => ?_⟩
  · intro b hb c hc
    rw [List.mem_singleton.1 hc]
    exact present_le_concat (fun b hb => (hlast b hb).trans hpresent) hpresent b hb
  · rcases List.eq_nil_or_concat' later with rfl | ⟨later', c, rfl⟩
    · obtain ⟨rfl, hb⟩ := List.append_inj' hsplit rfl
      cases hb
      exact slotKeepsSettling_repeat hlast hpresent hsample hlate (hslots slots a [] rfl)
    · rw [← List.cons_append, ← List.append_assoc] at hsplit
      obtain ⟨hbefore, hc⟩ := List.append_inj' hsplit rfl
      cases hc
      exact slotKeepsSettling_concat_repeat hbefore hpresent sample (hslots done b later' hbefore)

/-- A changed command is not presented before the sample of the one before, whose ports would else carry it. -/
theorem sample_le_present_of_change {cfg : Config} {powerGood : Nat} {slots : List Slot} {a b : Slot}
    (h : slotKeepsSettling cfg powerGood slots a [b] = true) (hword : b.word ≠ a.word) : a.sample ≤ b.present := by
  by_contra hlt
  have hbefore : b.present < a.sample := Nat.lt_of_not_le hlt
  obtain ⟨st, hst, hinputs, -⟩ := slotKeepsSettling_iff.1 h
  rw [← List.nil_append [b], eventsAtSample_concat, if_pos hbefore, eventsUpTo_cons_of_le (Nat.le_of_lt hbefore)] at hst
  exact hword (wordInputs_inj.1 ((stableInputs_inputs hst).symm.trans hinputs))

/-- A changed command waits `T_PD` from its own presentation, which is the last input change. -/
theorem wait_of_change {cfg : Config} {powerGood : Nat} {slots : List Slot} {a b : Slot}
    (horder : ∀ c ∈ slots ++ [a], c.present ≤ b.present) (h : slotKeepsSettling cfg powerGood (slots ++ [a]) b [] = true)
    (hword : b.word ≠ a.word) : max powerGood b.present + cfg.tPD ≤ b.sample := by
  obtain ⟨st, hst, -, -, hheld, htime⟩ := slotKeepsSettling_iff.1 h
  rw [eventsUpTo_eventsAtSample_last horder hheld, scheduleEvents_concat] at hst
  obtain ⟨sta, hsta⟩ := stableInputs_cons ⟨a.present, wordInputs a.word⟩ (scheduleEvents slots)
  have hchange : sta.inputs ≠ wordInputs b.word := by
    rw [stableInputs_inputs hsta]
    exact fun heq => hword (wordInputs_inj.1 heq).symm
  rw [stableInputs_change hsta hchange] at hst
  cases hst
  exact htime

/-- Settles O46: a repeat leaves the stable inputs of every sample as they are, and a change starts them anew. -/
theorem settlingCountsFromLastInputChange : Obligations.SettlingCountsFromLastInputChange := by
  refine ⟨fun cfg powerGood slots a present sample => keepsSettling_repeat, fun cfg powerGood slots a b h hword => ?_⟩
  obtain ⟨horder, hslots⟩ := keepsSettling_iff.1 h
  rw [List.append_cons] at horder
  exact ⟨sample_le_present_of_change (hslots slots a [b] rfl) hword,
    wait_of_change (present_le_last horder) (hslots (slots ++ [a]) b [] (List.append_cons ..)) hword⟩

end Sys2Proof.Machine
end

section
/-! SUPPORT. A key in an integrator's byte memory, and the texts of commands and command words (R28, R41, R42). -/

namespace Sys2Proof.Machine

/-! ## A key in byte memory -/

/-- A byte put back in its place holds the key's bits there and none elsewhere. -/
theorem placeByte_keyByte_getLsbD (k : Key) (b : Fin 8) {q : Nat} (hq : q < 64) :
    (placeByte b (keyByte k b)).getLsbD q = (decide (q / 8 = b.val) && k.getLsbD q) := by
  rw [placeByte, BitVec.getLsbD_shiftLeft, BitVec.getLsbD_setWidth, keyByte, BitVec.getLsbD_extractLsb']
  by_cases hin : q / 8 = b.val
  · rw [show 8 * b.val + (q - 8 * b.val) = q by omega]
    simp [hq, hin, show ¬ q < 8 * b.val by omega, show q - 8 * b.val < 64 by omega, show q - 8 * b.val < 8 by omega]
  · by_cases hbelow : q < 8 * b.val
    · simp [hin, hbelow]
    · simp [hin, show ¬ q - 8 * b.val < 8 by omega]

/-- Reading back the bytes that `order` names restores the key's bits in just those bytes. -/
theorem loadBytes_getLsbD (k : Key) (order : List (Fin 8)) {q : Nat} (hq : q < 64) :
    ((order.zip (order.map (keyByte k))).foldr (fun p acc => placeByte p.1 p.2 ||| acc) 0#64).getLsbD q =
      (decide (∃ b ∈ order, q / 8 = b.val) && k.getLsbD q) := by
  induction order with
  | nil => simp
  | cons b order ih =>
    rw [List.map_cons, List.zip_cons_cons, List.foldr_cons, BitVec.getLsbD_or, ih, placeByte_keyByte_getLsbD k b hq]
    by_cases hb : q / 8 = b.val <;> simp [hb]

/-- An order that names each of the eight bytes once names every byte. -/
theorem Config.mem_keyByteOrder {cfg : Config} (h : cfg.wellFormed = true) (b : Fin 8) : b ∈ cfg.keyByteOrder := by
  rw [Config.wellFormed, Bool.and_eq_true, decide_eq_true_iff, decide_eq_true_iff] at h
  obtain ⟨hlength, hnodup⟩ := h
  have hall : cfg.keyByteOrder.toFinset = Finset.univ :=
    Finset.eq_univ_of_card _ (by rw [List.toFinset_card_of_nodup hnodup, hlength, Fintype.card_fin])
  exact List.mem_toFinset.1 (hall ▸ Finset.mem_univ b)

/-- Settles O43: every bit lies in one of the bytes that the order names. -/
theorem storedKeyReadsBack : Obligations.StoredKeyReadsBack := by
  refine fun cfg k h => ⟨?_, BitVec.eq_of_getLsbD_eq fun q hq => ?_⟩
  · rw [Config.wellFormed, Bool.and_eq_true, decide_eq_true_iff] at h
    rw [storeKey, List.length_map, h.1]
  · have hnamed : ∃ b ∈ cfg.keyByteOrder, q / 8 = b.val := ⟨⟨q / 8, by omega⟩, Config.mem_keyByteOrder h _, rfl⟩
    rw [loadKey, storeKey, loadBytes_getLsbD k _ hq, decide_eq_true hnamed, Bool.true_and]

/-! ## Numerals and their fields (R41, R42) -/

theorem packPair_toNat (x y : Coord) : (packPair x y).toNat = y.toNat * 2 ^ 32 + x.toNat := by
  rw [packPair, BitVec.toNat_append, ← Nat.shiftLeft_add_eq_or_of_lt x.isLt, Nat.shiftLeft_eq]

theorem command_toNat (op : BitVec 1) (din : Key) : (command op din).toNat = op.toNat * 2 ^ 64 + din.toNat := by
  rw [command, BitVec.toNat_append, ← Nat.shiftLeft_add_eq_or_of_lt din.isLt, Nat.shiftLeft_eq]

theorem assemble_encode {x y : Nat} (hx : x < 2 ^ 32) (hy : y < 2 ^ 32) :
    assemble (.encode x y) = .ok (.encode (BitVec.ofNat 32 x) (BitVec.ofNat 32 y)) :=
  if_pos (by rw [SourceCommand.wellFormed, decide_eq_true hx, decide_eq_true hy, Bool.true_and])

theorem assemble_decode {key : Nat} (h : key < 2 ^ 64) :
    assemble (.decode key) = .ok (.decode (BitVec.ofNat 64 key)) := if_pos (decide_eq_true h)

theorem assemble_wide {c : SourceCommand} (h : c.wellFormed = false) : assemble c = .error .numeralTooWide :=
  if_neg (by rw [h]; decide)

/-- Settles O44: a numeral that fits is the value of its field, and a field's width is the whole check. -/
theorem assemblerRefusesWideNumerals : Obligations.AssemblerRefusesWideNumerals := by
  refine ⟨fun x y hx hy => ⟨_, assemble_encode hx hy, ?_⟩, fun key h => ⟨_, assemble_decode h, ?_⟩,
    fun x y hwide => assemble_wide ?_, fun key hwide => assemble_wide (decide_eq_false (Nat.not_lt.2 hwide))⟩
  · rw [encodeWord_encode, command_toNat, packPair_toNat, BitVec.toNat_ofNat x, BitVec.toNat_ofNat y, Nat.mod_eq_of_lt hx,
      Nat.mod_eq_of_lt hy]
    exact Nat.zero_add _
  · rw [encodeWord_decode, command_toNat, BitVec.toNat_ofNat key, Nat.mod_eq_of_lt h]
    rfl
  · rw [SourceCommand.wellFormed, Bool.and_eq_false_iff, decide_eq_false_iff_not, decide_eq_false_iff_not]
    omega

/-! ## Reading back what was written (R41) -/

/-- `v` as a hexadecimal numeral of `n` digits. -/
def hexNumeral (n v : Nat) : List Char := '0' :: 'x' :: hexDigits n v

theorem numeral_hexNumeral {n v : Nat} (hn : 0 < n) (hv : v < 16 ^ n) : numeral (hexNumeral n v) = some v := by
  have hread := digitsValue_hexDigits (acc := 0) (rest := []) (afterDigit := false) hn hv
  rw [List.append_nil, Nat.zero_mul, Nat.zero_add] at hread
  exact hread

/-- The numeral holds no comma. -/
theorem hexNumeral_no_comma (n v : Nat) : ∀ c ∈ ' ' :: hexNumeral n v, c ≠ ',' := by
  intro c hc
  simp only [hexNumeral, List.mem_cons] at hc
  rcases hc with rfl | rfl | rfl | hc
  · decide
  · decide
  · decide
  · exact (hexDigits_plain hc).2

theorem hexNumeral_getLast? (n v : Nat) : (hexNumeral (n + 1) v).getLast? = some (hexDigit (v % 16)) := by
  rw [hexNumeral, hexDigits, ← List.cons_append, ← List.cons_append, List.getLast?_concat]

theorem hexDigit_not_blank (v : Nat) : isBlank (hexDigit (v % 16)) = false := by
  obtain ⟨-, -, -, hblank⟩ := hexDigit_reads_back (show v % 16 < 16 by omega)
  exact hblank

/-- Nothing is trimmed from a text with no blank at its ends. -/
theorem trimBlanks_of_ends {c d : Char} {t : List Char} (hc : isBlank c = false) (hd : isBlank d = false)
    (ht : t.getLast? = some d) : trimBlanks (c :: t) = c :: t := by
  obtain ⟨u, rfl⟩ := List.getLast?_eq_some_iff.1 ht
  simp [trimBlanks, hc, hd]

theorem trimBlanks_blank_cons {c : Char} (hc : isBlank c = true) (t : List Char) : trimBlanks (c :: t) = trimBlanks t := by
  simp [trimBlanks, hc]

/-- The blank before an operand is trimmed and the operand stays. -/
theorem trimBlanks_blank_hexNumeral (n v : Nat) : trimBlanks (' ' :: hexNumeral (n + 1) v) = hexNumeral (n + 1) v := by
  rw [trimBlanks_blank_cons (by decide)]
  refine trimBlanks_of_ends (by decide) (hexDigit_not_blank v) ?_
  rw [hexDigits, ← List.cons_append, List.getLast?_concat]

/-- A text of a mnemonic, a blank and operands, with no blanks around it. -/
theorem parseSource_mnemonic {c d : Char} {name operands : List Char} {m : Mnemonic} (hm : mnemonicOf (c :: name) = some m)
    (hname : (c :: name).all Char.isAlpha = true) (hc : isBlank c = false) (hd : isBlank d = false)
    (hlast : operands.getLast? = some d) :
    parseSource (c :: name ++ ' ' :: operands) = sourceOf m ((splitAtCommas (' ' :: operands)).map trimBlanks) := by
  have htrim : trimBlanks (c :: name ++ ' ' :: operands) = c :: name ++ ' ' :: operands :=
    trimBlanks_of_ends hc hd (by simp [List.getLast?_append, List.getLast?_cons, hlast])
  rw [List.all_eq_true] at hname
  have htake : (c :: name ++ ' ' :: operands).takeWhile Char.isAlpha = c :: name := by
    rw [List.takeWhile_append_of_pos hname]
    exact List.append_nil (c :: name)
  have hdrop : (c :: name ++ ' ' :: operands).dropWhile Char.isAlpha = ' ' :: operands := by
    rw [List.dropWhile_append_of_pos hname]
    rfl
  simp only [parseSource, htrim, htake, hdrop, hm]
  rfl

theorem mnemonicOf_ENCODE : mnemonicOf ['E', 'N', 'C', 'O', 'D', 'E'] = some .ENCODE := by decide
theorem mnemonicOf_DECODE : mnemonicOf ['D', 'E', 'C', 'O', 'D', 'E'] = some .DECODE := by decide

theorem parseSource_encodeText {x y : Nat} (hx : x < 2 ^ 32) (hy : y < 2 ^ 32) :
    parseSource (['E', 'N', 'C', 'O', 'D', 'E'] ++ ' ' :: (hexNumeral 8 x ++ ',' :: ' ' :: hexNumeral 8 y)) =
      .ok (.encode x y) := by
  have hlast : (hexNumeral 8 x ++ ',' :: ' ' :: hexNumeral 8 y).getLast? = some (hexDigit (y % 16)) := by
    simp [List.getLast?_append, List.getLast?_cons, hexNumeral_getLast?]
  have hparse := parseSource_mnemonic mnemonicOf_ENCODE (by decide) (by decide) (hexDigit_not_blank y) hlast
  rw [hparse, ← List.cons_append, splitAtCommas_append (hexNumeral_no_comma 8 x),
    splitAtCommas_plain (hexNumeral_no_comma 8 y), List.map_cons, List.map_cons, List.map_nil, trimBlanks_blank_hexNumeral,
    trimBlanks_blank_hexNumeral]
  simp only [sourceOf, numeral_hexNumeral (show 0 < 8 by decide) hx, numeral_hexNumeral (show 0 < 8 by decide) hy]

theorem parseSource_decodeText {key : Nat} (h : key < 2 ^ 64) :
    parseSource (['D', 'E', 'C', 'O', 'D', 'E'] ++ ' ' :: hexNumeral 16 key) = .ok (.decode key) := by
  have hparse := parseSource_mnemonic mnemonicOf_DECODE (by decide) (by decide) (hexDigit_not_blank key)
    (hexNumeral_getLast? 15 key)
  rw [hparse, splitAtCommas_plain (hexNumeral_no_comma 16 key), List.map_cons, List.map_nil, trimBlanks_blank_hexNumeral]
  simp only [sourceOf, numeral_hexNumeral (show 0 < 16 by decide) h]

/-- The text of a command reads back as the command. -/
theorem assembleText_commandText (i : Instr) : assembleText (commandText i) = .ok i := by
  cases i with
  | encode x y =>
    have htext : commandText (.encode x y) =
        ['E', 'N', 'C', 'O', 'D', 'E'] ++ ' ' :: (hexNumeral 8 x.toNat ++ ',' :: ' ' :: hexNumeral 8 y.toNat) := by
      simp [commandText, hexNumeral]
    rw [assembleText, htext, parseSource_encodeText x.isLt y.isLt]
    dsimp only
    rw [assemble_encode x.isLt y.isLt, BitVec.ofNat_toNat, BitVec.ofNat_toNat, BitVec.setWidth_eq, BitVec.setWidth_eq]
  | decode key =>
    have htext : commandText (.decode key) = ['D', 'E', 'C', 'O', 'D', 'E'] ++ ' ' :: hexNumeral 16 key.toNat := by
      simp [commandText, hexNumeral]
    rw [assembleText, htext, parseSource_decodeText key.isLt]
    dsimp only
    rw [assemble_decode key.isLt, BitVec.ofNat_toNat, BitVec.setWidth_eq]

theorem digitValue_two_hexDigit (op : BitVec 1) : digitValue 2 (hexDigit op.toNat) = some op.toNat := by
  revert op
  decide

/-- Two groups of eight digits are read as one number (R11). -/
theorem digitsValue_two_groups {hi lo : Nat} (hhi : hi < 16 ^ 8) (hlo : lo < 16 ^ 8) :
    digitsValue 16 false 0 (hexDigits 8 hi ++ '_' :: hexDigits 8 lo) = some (hi * 2 ^ 32 + lo) := by
  have hlow := digitsValue_hexDigits (acc := hi) (rest := []) (afterDigit := false) (by decide) hlo
  rw [List.append_nil] at hlow
  rw [digitsValue_hexDigits (by decide) hhi, Nat.zero_mul, Nat.zero_add]
  exact hlow

/-- The text of a command word reads back as the word. -/
theorem parseWord_wordText (w : CommandWord) : parseWord (wordText w) = .ok w := by
  have htext : wordText w = hexDigit w.op.toNat :: ':' ::
      (hexDigits 8 (w.din.toNat / 2 ^ 32) ++ '_' :: hexDigits 8 (w.din.toNat % 2 ^ 32)) := by
    simp [wordText]
  have hdin := w.din.isLt
  have hread := digitsValue_two_groups (hi := w.din.toNat / 2 ^ 32) (lo := w.din.toNat % 2 ^ 32) (by omega) (by omega)
  rw [Nat.div_add_mod'] at hread
  simp only [htext, parseWord, digitValue_two_hexDigit, hread, hdin, if_true, BitVec.ofNat_toNat, BitVec.setWidth_eq,
    command_parts]

/-- Settles O45: written digits are read back, and blanks, commas and the mnemonic part the text where it was joined. -/
theorem textReadsBack : Obligations.TextReadsBack := ⟨assembleText_commandText, parseWord_wordText⟩

end Sys2Proof.Machine
end
